-- ==== Sys2Proof/Word.lean ====
section
/-! DEFINITION. The word types of the PDM2PCM decimation core and the name of a buffer half (`00_scope.md` R15). -/

namespace Sys2Proof

/-- A register, operand or handle: 32 bits (`10_state.md` R23). -/
abbrev Word := BitVec 32

/-- One byte of system memory (`20_memory.md` R60). -/
abbrev Byte := BitVec 8

/-- A PDM word or a PCM sample: 16 bits (`00_scope.md` R9). -/
abbrev Word16 := BitVec 16

/-- The 32 bits of a binary32 value (`40_pipeline.md` R126). -/
abbrev F32 := BitVec 32

/-- One of the two halves of the capture buffer (`10_state.md` R40): `first` is half 0, `second` is half 1. -/
inductive Half where
  | first
  | second
deriving DecidableEq, Repr, Inhabited

/-- The other half: NEXT_EVT and NEXT_PROC advance by it (`10_state.md` R22). -/
def Half.other : Half → Half
  | .first => .second
  | .second => .first

/-- The half's number, 0 or 1, as STATUS shows it. -/
def Half.bit : Half → BitVec 1
  | .first => 0#1
  | .second => 1#1

/-- The half's number. -/
def Half.num : Half → Nat
  | .first => 0
  | .second => 1

/-- The half a one-bit field names. -/
def Half.ofBit (b : BitVec 1) : Half := if b = 0#1 then .first else .second

/-- A binary32 pattern is finite when its exponent field is not all ones. -/
def f32Finite (x : F32) : Bool := x.extractLsb' 23 8 != 0xFF#8

end Sys2Proof
end

