-- ==== Sys2Proof/Config.lean ====
section
/-! DEFINITION. The implementation parameters of `00_scope.md` R8 and the free values of the model. An OPEN parameter is
an opaque constant with no body: nothing in Lean can evaluate it, so what is proved holds for every value of it. -/

namespace Sys2Proof

/-- What the acquisition binding answers to CONFIGURE: the values of the Draw of `43_controller.md` R200. -/
inductive Binding where
  | ok
  | clockFail
  | bindFail
  | armFail
deriving DecidableEq, Repr, Inhabited

/-- Which bit of a PDM word holds the earliest PDM bit (`20_memory.md` R62). -/
inductive PackOrder where
  | lsbEarliest
  | msbEarliest
deriving DecidableEq, Repr, Inhabited

namespace Config

/-- WORD_BITS (`00_scope.md` R9). -/
def wordBits : Nat := 16

/-- SINC_TAPS (`00_scope.md` R9). -/
def sincTaps : Nat := 64

/-- SINC_WMAX (`00_scope.md` R9). -/
def sincWMax : Nat := 2516

/-- HALF_WORDS (`00_scope.md` R11). -/
def halfWords : Nat := 4

/-- The largest sinc sum, 64 × 2516 (`00_scope.md` R10). -/
def sincSumMax : Nat := sincTaps * sincWMax

/-- OPEN `SINC_W`, its first 32 entries: each between 0 and 2516. The other 32 are their mirror image
(`00_scope.md` R10; the table itself is `sincW` of `Machine/Tables.lean`, log 7). -/
opaque sincHalf : Fin 32 → Fin 2517

/-- OPEN `FIR_TAPS`, as `(N - 1) / 2`: N is odd and at least 1 (`00_scope.md` R12). -/
opaque firOrder : Nat

/-- `FIR_TAPS` = N, the length of the tap set and of the delay line (`00_scope.md` R12). -/
def firTaps : Nat := 2 * firOrder + 1

/-- OPEN `FIR_H`, its first `(N + 1) / 2` entries as bit patterns, before the checks of `40_pipeline.md` R129
(`firH` of `Machine/Tables.lean`, log 8). -/
opaque firRaw : Nat → F32

/-- OPEN `rate_ok`: one rate that is legal (`00_scope.md` R13, log 9). -/
opaque someRate : Word

/-- OPEN `rate_ok`: which other rates are legal (`00_scope.md` R13, log 9). -/
opaque otherRateOk : Word → Bool

/-- The number of one 4096-byte page that the platform's memory accepts (`20_memory.md` R69, log 10). -/
opaque ramPage : Fin (2 ^ 20)

/-- Which other addresses the platform's memory accepts (`20_memory.md` R69, log 10). -/
opaque otherMemAccepts : Nat → Bool

/-- OPEN `REG_BASE`, bits 31 to 6: the register window is 64-byte aligned (`20_memory.md` R69). No step reads it: an
input names a register by its offset (log 21). -/
opaque regBaseHigh : BitVec 26

/-- OPEN `REG_BASE` (`20_memory.md` R69). -/
def regBase : Word := regBaseHigh ++ 0#6

/-- OPEN `pdm_pack_order`; "no rule of the block depends on it" (`20_memory.md` R62, log 21). -/
opaque pdmPackOrder : PackOrder

/-- OPEN `DEST_COHERENT`, a property of the platform that no step of the block reads (`20_memory.md` R79, log 21). -/
opaque destCoherent : Bool

/-- Free value: what the binding answers to the CONFIGURE that asks it after the given number of draws
(`43_controller.md` R200, log 4). -/
opaque freeBinding : Nat → Binding

/-- Free value: the word BUF[k] holds after the draw of the given number (`10_state.md` R43, log 5). -/
opaque freeBufWord : Nat → Nat → Word16

/-- Free value: the pattern of a NaN result of an addition or multiplication of two binary32 values. IEEE 754 fixes no
payload, and no valid instance is meant to reach one (`40_pipeline.md` R128, R134, log 12). -/
opaque freeNaN : F32 → F32 → F32

/-- Free value: the sample PCM_NARROW gives for an infinity or NaN, for which `40_pipeline.md` R130 states none
(log 13). -/
opaque freeNarrow : F32 → Word16

end Config

end Sys2Proof
end

