-- ==== Sys2Proof/Syntax.lean ====
section
/-! DEFINITION. The instructions: one constructor per row of `spec/opcode_table.json` (`00_scope.md` R2, `30_encoding.md`
R93, R98, R100, R105). -/

namespace Sys2Proof

/-- One instruction of the block: a host command, a producer event, a producer word write, or an operation of the
sequencer and its datapath. The four EVT_RESERVED rows of the table are four constructors (log 20). The internal
operations carry the operand their rule names, because no encoding does (`30_encoding.md` R105, log 14). -/
inductive Instr where
  /-- CMD32 0x00000001 (`43_controller.md` R200). -/
  | configure
  /-- CMD32 0x00000002 (`42_stream.md` R180). -/
  | start
  /-- CMD32 0x00000003 (`43_controller.md` R202). -/
  | registerCallback
  /-- CMD32 0x00000004 (`42_stream.md` R188). -/
  | cancel
  /-- CMD32 0x00000005 (`43_controller.md` R210). -/
  | deinit
  /-- Every other CMD32 word, by its fields OP and RSV (`30_encoding.md` R97). -/
  | illegalCmd (op : BitVec 8) (rsv : BitVec 24)
  /-- EVT4 0x1 (`41_acquisition.md` R152). -/
  | evtHalf
  /-- EVT4 0x2 (`41_acquisition.md` R153). -/
  | evtFull
  /-- EVT4 0x3 (`41_acquisition.md` R154). -/
  | evtErrOverrun
  /-- EVT4 0x4 (`41_acquisition.md` R155). -/
  | evtErrPeripheral
  /-- EVT4 0x0 (`30_encoding.md` R99). -/
  | evtReserved0
  /-- EVT4 0x5 (`30_encoding.md` R99). -/
  | evtReserved5
  /-- EVT4 0x6 and 0x7, by bit 0 (`30_encoding.md` R99). -/
  | evtReserved67 (low : BitVec 1)
  /-- EVT4 0x8 to 0xF, by bits 2 to 0 (`30_encoding.md` R99). -/
  | evtReserved8F (low : BitVec 3)
  /-- PDMWR19, by IDX and DATA (`41_acquisition.md` R151). -/
  | pdmWr (idx : BitVec 3) (data : Word16)
  /-- The sequencer's step (`41_acquisition.md` R160). -/
  | seqProcess
  /-- SINC_DECIMATE(h) (`40_pipeline.md` R120). -/
  | sincDecimate (h : Half)
  /-- FIR_STEP(s) (`40_pipeline.md` R125). -/
  | firStep (x : Word)
  /-- PCM_NARROW(y) (`40_pipeline.md` R130). -/
  | pcmNarrow (y : F32)
  /-- ON_SAMPLE(p) (`42_stream.md` R184). -/
  | onSample (p : Word16)
  /-- COMPLETE() (`42_stream.md` R185). -/
  | complete
deriving DecidableEq, Repr

end Sys2Proof
end

