-- ==== Sys2Proof/WellFormed.lean ====
section
/-! DEFINITION. Which terms of `Instr` stand for something the block can be given. -/

namespace Sys2Proof

/-- A command word is one of the five commands exactly when RSV = 0 and OP is 1 to 5 (`30_encoding.md` R93, R97). -/
def legalCommandFields (op : BitVec 8) (rsv : BitVec 24) : Bool :=
  rsv == 0#24 && decide (1 ≤ op.toNat) && decide (op.toNat ≤ 5)

/-- Well-formedness: an ILLEGAL_CMD carries a word that is no command (`30_encoding.md` R97); FIR_STEP's operand is at
most 161024 (`40_pipeline.md` R125); PCM_NARROW's operand is a finite binary32 value (`40_pipeline.md` R130). -/
def Instr.wf : Instr → Bool
  | .configure => true
  | .start => true
  | .registerCallback => true
  | .cancel => true
  | .deinit => true
  | .illegalCmd op rsv => !legalCommandFields op rsv
  | .evtHalf => true
  | .evtFull => true
  | .evtErrOverrun => true
  | .evtErrPeripheral => true
  | .evtReserved0 => true
  | .evtReserved5 => true
  | .evtReserved67 _ => true
  | .evtReserved8F _ => true
  | .pdmWr _ _ => true
  | .seqProcess => true
  | .sincDecimate _ => true
  | .firStep x => decide (x.toNat ≤ 161024)
  | .pcmNarrow y => f32Finite y
  | .onSample _ => true
  | .complete => true

end Sys2Proof
end

