-- ==== Sys2Proof/Decode.lean ====
section
/-! DEFINITION. The three decoders of `30_encoding.md` (CMD32, EVT4, PDMWR19), as one total decoder on bytes that
rejects by name, and the encoder. -/

namespace Sys2Proof

/-- The interface an encoding is carried on (`30_encoding.md` R90). The sequencer's turn carries no bits: it is the
trigger of SEQ_PROCESS (`30_encoding.md` R105). -/
inductive Port where
  | command
  | event
  | pdmWrite
  | sequencer
deriving DecidableEq, Repr

/-- Why bytes are no encoding. -/
inductive DecodeError where
  /-- The interface carries a fixed number of bytes, and these are not as many (`30_encoding.md` R90). -/
  | wrongLength (port : Port) (bytes : Nat)
  /-- A bit outside the 4 bits of EVT4 or the 19 bits of PDMWR19 is set (`30_encoding.md` R90). -/
  | strayBits (port : Port)
deriving DecidableEq, Repr

/-- CMD32: the match is on all 32 bits (`30_encoding.md` R93, R97). -/
def decodeCommand (w : Word) : Instr :=
  if w = 0x00000001#32 then .configure
  else if w = 0x00000002#32 then .start
  else if w = 0x00000003#32 then .registerCallback
  else if w = 0x00000004#32 then .cancel
  else if w = 0x00000005#32 then .deinit
  else .illegalCmd (w.extractLsb' 0 8) (w.extractLsb' 8 24)

/-- EVT4 (`30_encoding.md` R98, R99). -/
def decodeEvent (c : BitVec 4) : Instr :=
  if c = 0x1#4 then .evtHalf
  else if c = 0x2#4 then .evtFull
  else if c = 0x3#4 then .evtErrOverrun
  else if c = 0x4#4 then .evtErrPeripheral
  else if c = 0x0#4 then .evtReserved0
  else if c = 0x5#4 then .evtReserved5
  else if c.extractLsb' 1 3 = 0x3#3 then .evtReserved67 (c.extractLsb' 0 1)
  else .evtReserved8F (c.extractLsb' 0 3)

/-- PDMWR19: IDX is bits 18 to 16, DATA bits 15 to 0 (`30_encoding.md` R100). -/
def decodePdmWrite (w : BitVec 19) : Instr :=
  .pdmWr (w.extractLsb' 16 3) (w.extractLsb' 0 16)

/-- The four bytes of a CMD32 word, bits 7 to 0 first (`20_memory.md` R64). -/
def decodeCommandBytes (bytes : List Byte) : Except DecodeError Instr :=
  match bytes with
  | [b0, b1, b2, b3] => .ok (decodeCommand (b3 ++ b2 ++ b1 ++ b0))
  | l => .error (.wrongLength .command l.length)

/-- The byte of an EVT4 code. -/
def decodeEventBytes (bytes : List Byte) : Except DecodeError Instr :=
  match bytes with
  | [b0] =>
    if b0.extractLsb' 4 4 = 0#4 then .ok (decodeEvent (b0.extractLsb' 0 4)) else .error (.strayBits .event)
  | l => .error (.wrongLength .event l.length)

/-- The three bytes of a PDMWR19 write, bits 7 to 0 first. -/
def decodePdmWriteBytes (bytes : List Byte) : Except DecodeError Instr :=
  match bytes with
  | [b0, b1, b2] =>
    if b2.extractLsb' 3 5 = 0#5 then .ok (decodePdmWrite (b2.extractLsb' 0 3 ++ b1 ++ b0))
    else .error (.strayBits .pdmWrite)
  | l => .error (.wrongLength .pdmWrite l.length)

/-- The sequencer's turn: no bytes. -/
def decodeTurn (bytes : List Byte) : Except DecodeError Instr :=
  match bytes with
  | [] => .ok .seqProcess
  | l => .error (.wrongLength .sequencer l.length)

/-- The decoder on the bytes an interface carries. -/
def decodeBytes (p : Port) (bytes : List Byte) : Except DecodeError Instr :=
  match p with
  | .command => decodeCommandBytes bytes
  | .event => decodeEventBytes bytes
  | .pdmWrite => decodePdmWriteBytes bytes
  | .sequencer => decodeTurn bytes

/-- The four bytes of a command word, bits 7 to 0 first. -/
def commandBytes (w : Word) : List Byte :=
  [w.extractLsb' 0 8, w.extractLsb' 8 8, w.extractLsb' 16 8, w.extractLsb' 24 8]

/-- The byte of an event code. -/
def eventBytes (c : BitVec 4) : List Byte := [0#4 ++ c]

/-- The three bytes of a PDMWR19 write, bits 7 to 0 first. -/
def pdmWriteBytes (w : BitVec 19) : List Byte :=
  [w.extractLsb' 0 8, w.extractLsb' 8 8, 0#5 ++ w.extractLsb' 16 3]

/-- The encoder, from the tables of `30_encoding.md` R93, R98 and R100; the datapath operations have no encoding
(R105), and the sequencer's step is the turn that carries no bits. -/
def encode : Instr → Option (Port × List Byte)
  | .configure => some (.command, commandBytes 0x00000001#32)
  | .start => some (.command, commandBytes 0x00000002#32)
  | .registerCallback => some (.command, commandBytes 0x00000003#32)
  | .cancel => some (.command, commandBytes 0x00000004#32)
  | .deinit => some (.command, commandBytes 0x00000005#32)
  | .illegalCmd op rsv => some (.command, commandBytes (rsv ++ op))
  | .evtHalf => some (.event, eventBytes 0x1#4)
  | .evtFull => some (.event, eventBytes 0x2#4)
  | .evtErrOverrun => some (.event, eventBytes 0x3#4)
  | .evtErrPeripheral => some (.event, eventBytes 0x4#4)
  | .evtReserved0 => some (.event, eventBytes 0x0#4)
  | .evtReserved5 => some (.event, eventBytes 0x5#4)
  | .evtReserved67 low => some (.event, eventBytes (0b011#3 ++ low))
  | .evtReserved8F low => some (.event, eventBytes (0b1#1 ++ low))
  | .pdmWr idx data => some (.pdmWrite, pdmWriteBytes (idx ++ data))
  | .seqProcess => some (.sequencer, [])
  | .sincDecimate _ => none
  | .firStep _ => none
  | .pcmNarrow _ => none
  | .onSample _ => none
  | .complete => none

/-- How many bytes each interface carries (`30_encoding.md` R90). -/
def Port.bytes : Port → Nat
  | .command => 4
  | .event => 1
  | .pdmWrite => 3
  | .sequencer => 0

/-- The interface a table row of the given width belongs to: 4 bits are EVT4, 19 bits PDMWR19, 32 bits CMD32, none the
sequencer's turn (log 20). -/
def portOfWidth (nbits : Nat) : Option Port :=
  if nbits = 0 then some .sequencer
  else if nbits ≤ 8 then some .event
  else if nbits ≤ 24 then some .pdmWrite
  else if nbits ≤ 32 then some .command
  else none

/-- The low `n` bytes of a number, bits 7 to 0 first. -/
def bytesOfNat : Nat → Nat → List Byte
  | 0, _ => []
  | n + 1, w => BitVec.ofNat 8 w :: bytesOfNat n (w / 256)

/-- The instruction the decoder reads from a table word: the word's bytes as the row's interface carries them. A number
with bits above those the interface has is refused. -/
def decodeTableWord (nbits w : Nat) : Option Instr :=
  match portOfWidth nbits with
  | none => none
  | some p =>
    if w < 256 ^ p.bytes then
      match decodeBytes p (bytesOfNat p.bytes w) with
      | .ok i => some i
      | .error _ => none
    else none

end Sys2Proof
end

