-- ==== Sys2Proof/Machine/State.lean ====
section
/-! DEFINITION. The state of the block, of the memory it writes and of the inputs still to come; why a step can stop;
and the state after reset. -/

namespace Sys2Proof.Machine

/-- STATUS.STATE (`10_state.md` R29). -/
inductive DeviceState where
  | uninitialized
  | configured
  | capturing
  | stopped
deriving DecidableEq, Repr

/-- STATUS.RESULT, the codes that are written (`30_encoding.md` R94). -/
inductive ResultCode where
  | ok
  | configError
  | alreadyInProgress
  | invalidCallback
  | badState
  | badDest
  | illegalCmd
deriving DecidableEq, Repr

/-- STATUS.DETAIL, the codes that are written (`30_encoding.md` R95). -/
inductive DetailCode where
  | none
  | badRate
  | tableMismatch
  | clockFail
  | bindFail
  | armFail
deriving DecidableEq, Repr

/-- STATUS.FAULT_CAUSE, the codes that are written (`60_exceptions.md` R233). -/
inductive FaultCause where
  | none
  | overrunReported
  | peripheral
  | overrunDetected
  | sequence
  | badEvent
deriving DecidableEq, Repr

/-- The width of a host access to the register window (`20_memory.md` R66). -/
inductive AccessWidth where
  | w8
  | w16
  | w32
deriving DecidableEq, Repr

/-- A completion request `(cb, arg)` (`42_stream.md` R186). -/
structure Request where
  cb : Word
  arg : Word
deriving DecidableEq, Repr

/-- One input of one agent; the schedule of them is one interleaving (`00_scope.md` R14, `20_memory.md` R71, log 1). -/
inductive Input where
  /-- A host write to the register window, at an offset from REG_BASE (`20_memory.md` R66). -/
  | regWrite (offset : BitVec 6) (width : AccessWidth) (value : Word)
  /-- A host read of the register window (`20_memory.md` R66). -/
  | regRead (offset : BitVec 6) (width : AccessWidth)
  /-- A host store of one byte into system memory (`20_memory.md` R72, log 16). -/
  | hostStore (addr : Word) (value : Byte)
  /-- An event on `evt_code` with `evt_valid` (`30_encoding.md` R98). -/
  | event (code : BitVec 4)
  /-- A word on the producer's write port with `pdm_valid` (`30_encoding.md` R100). -/
  | pdmWrite (word : BitVec 19)
  /-- Producer inputs presented together (`41_acquisition.md` R156, log 18). -/
  | together (write : Option (BitVec 19)) (codes : List (BitVec 4))
  /-- What the acquisition binding will answer next (`43_controller.md` R200, log 4). -/
  | bindingAnswer (answer : Binding)
  /-- The sequencer's turn (`41_acquisition.md` R161). -/
  | sequencer
  /-- The deferred queue runs its oldest request (`30_encoding.md` R102, RUNQ). -/
  | runQueue
  /-- The platform asserts `rst` (`70_reset_and_hazards.md` R270). -/
  | resetAssert
  /-- The platform releases `rst` (`70_reset_and_hazards.md` R270). -/
  | resetRelease
deriving DecidableEq, Repr

/-- System memory: the bytes that were written, by rising address; an address that is not listed has no value, because
the spec gives none (log 11). -/
abbrev Memory := List Host.Cell

/-- The state: `10_state.md` R20, system memory, the reset input, and the model's own fields. -/
structure State where
  /-- ARG0 (`10_state.md` R25). -/
  arg0 : Word
  /-- ARG1 (`10_state.md` R26). -/
  arg1 : Word
  /-- ARG2 (`10_state.md` R27). -/
  arg2 : Word
  /-- STATUS.STATE (`10_state.md` R29). -/
  st : DeviceState
  /-- STATUS.FAULT (`10_state.md` R32). -/
  fault : Bool
  /-- STATUS.RESULT (`10_state.md` R31). -/
  result : ResultCode
  /-- STATUS.DETAIL (`10_state.md` R31). -/
  detail : DetailCode
  /-- STATUS.FAULT_CAUSE (`10_state.md` R32). -/
  faultCause : FaultCause
  /-- STATUS.FAULT_HALF (`10_state.md` R32). -/
  faultHalf : Half
  /-- STATUS.ARMED (`10_state.md` R33). -/
  armed : Bool
  /-- PEND[0] (`10_state.md` R34). -/
  pend0 : Bool
  /-- PEND[1] (`10_state.md` R34). -/
  pend1 : Bool
  /-- OWN[0] (`10_state.md` R34). -/
  own0 : Bool
  /-- OWN[1] (`10_state.md` R34). -/
  own1 : Bool
  /-- NEXT_EVT (`10_state.md` R34). -/
  nextEvt : Half
  /-- NEXT_PROC (`10_state.md` R34). -/
  nextProc : Half
  /-- CURSOR (`10_state.md` R35). -/
  cursor : Word
  /-- DEST_ADDR (`10_state.md` R36). -/
  destAddr : Word
  /-- DEST_LEN (`10_state.md` R36). -/
  destLen : Word
  /-- CB (`10_state.md` R37). -/
  cb : Word
  /-- RATE (`10_state.md` R38). -/
  rate : Word
  /-- LAST_SINC (`10_state.md` R39). -/
  lastSinc : Word
  /-- LAST_PCM, bits 15 to 0; the others read 0 (`10_state.md` R39). -/
  lastPcm : Word16
  /-- BUF[0..7] (`10_state.md` R40). -/
  buf : Vector Word16 8
  /-- WRITTEN[0..7] (`10_state.md` R43). -/
  written : Vector Bool 8
  /-- The FIR delay line D, newest input first (`10_state.md` R41). -/
  delay : List F32
  /-- SUBMITTED, oldest first (`10_state.md` R44). -/
  submitted : List Request
  /-- System memory (`20_memory.md` R60). -/
  mem : Memory
  /-- The level of the reset input (`70_reset_and_hazards.md` R270, log 17). -/
  rst : Bool
  /-- Model's own: the inputs still to come, next first (log 1). -/
  inputs : List Input
  /-- Model's own: what the binding answers when CONFIGURE next asks it (log 4). -/
  binding : Binding
  /-- Model's own: how many free draws were made (log 5). -/
  draws : Nat
  /-- Model's own: what a datapath operation run on its own returned (log 14). -/
  ret : Word
  /-- Model's own: what the host's last register read returned (log 15). -/
  busData : Word
  /-- Model's own: how many entries of SUBMITTED the deferred queue has run (log 19). -/
  queueRun : Nat
deriving DecidableEq, Repr

/-- Why a run stops. Each is safe: nothing about a later state of such a run can be proved. -/
inductive Fault where
  /-- Raised by SINC_DECIMATE and SEQ_PROCESS on the first word of the half that the producer has not rewritten
  (`40_pipeline.md` R122). Safe. -/
  | unwrittenBufferRead (index : Nat)
  /-- Raised by a host access to the register window that is not 32 bits wide or not 4-aligned (`20_memory.md` R66).
  Safe. -/
  | registerAccessError (offset : BitVec 6) (width : AccessWidth)
  /-- Raised by a host store into the armed destination range (`20_memory.md` R72). Safe. -/
  | destinationRace (addr : Word)
  /-- The stuck state of the sequencer: raised by ON_SAMPLE and SEQ_PROCESS when the platform's memory refuses the
  sample write (`20_memory.md` R69). Safe. -/
  | sampleWriteRefused (addr : Nat)
  /-- Raised by a host store to an address the platform's memory refuses; it is outside the block (log 16). Safe. -/
  | hostStoreRefused (addr : Word)
deriving DecidableEq, Repr

/-- Why an input has no meaning. Each is safe. -/
inductive Refusal where
  /-- Raised by `exec` for an instruction that has no meaning yet (none is left). Safe. -/
  | notModelled (mnemonic : String)
  /-- Raised by a step whose input carries bytes the decoder rejects; the bytes an input carries never are, since the
  decoders are total (`30_encoding.md` R104). Safe. -/
  | undecodable (reason : DecodeError)
deriving DecidableEq, Repr

/-- The machine right after power-on reset, `rst` released (`70_reset_and_hazards.md` R271). BUF is unspecified there
(log 6); the model's own fields start as INVENTORY.md says. -/
def State.reset : State where
  arg0 := 0#32
  arg1 := 0#32
  arg2 := 0#32
  st := .uninitialized
  fault := false
  result := .ok
  detail := .none
  faultCause := .none
  faultHalf := .first
  armed := false
  pend0 := false
  pend1 := false
  own0 := false
  own1 := false
  nextEvt := .first
  nextProc := .first
  cursor := 0#32
  destAddr := 0#32
  destLen := 0#32
  cb := 0#32
  rate := 0#32
  lastSinc := 0#32
  lastPcm := 0#16
  buf := #v[0#16, 0#16, 0#16, 0#16, 0#16, 0#16, 0#16, 0#16]
  written := #v[false, false, false, false, false, false, false, false]
  delay := List.replicate Config.firTaps 0#32
  submitted := []
  mem := []
  rst := false
  inputs := []
  binding := .ok
  draws := 0
  ret := 0#32
  busData := 0#32
  queueRun := 0

end Sys2Proof.Machine
end

