-- ==== Sys2Proof/Machine/Float.lean ====
section
/-! DEFINITION. IEEE 754 binary32 addition and multiplication, round to nearest, ties to even, subnormals kept
(`00_scope.md` R18, `40_pipeline.md` R126, R134). Every finite value is a whole number of units of 2^-149, and every
finite product or sum a whole number of units of 2^-298, so both are computed exactly and rounded once. -/

namespace Sys2Proof.Machine

/-- The sign bit. -/
def f32Neg (x : F32) : Bool := x.getLsbD 31

/-- The exponent field. -/
def f32Exp (x : F32) : Nat := (x.extractLsb' 23 8).toNat

/-- The fraction field. -/
def f32Frac (x : F32) : Nat := (x.extractLsb' 0 23).toNat

/-- The magnitude of a finite value, in units of 2^-149. -/
def f32Mag (x : F32) : Nat :=
  if f32Exp x = 0 then f32Frac x else (2 ^ 23 + f32Frac x) * 2 ^ (f32Exp x - 1)

/-- A finite value, in units of 2^-149. -/
def f32Units (x : F32) : Int := if f32Neg x then - (f32Mag x : Int) else (f32Mag x : Int)

def f32IsNaN (x : F32) : Bool := f32Exp x == 255 && f32Frac x != 0

def f32IsInf (x : F32) : Bool := f32Exp x == 255 && f32Frac x == 0

/-- A sign and 31 bits of exponent and fraction. -/
def f32Pack (neg : Bool) (bits : Nat) : F32 := BitVec.ofNat 32 ((if neg then 2 ^ 31 else 0) + bits)

def f32Inf (neg : Bool) : F32 := f32Pack neg 0x7F800000

/-- The power of two one unit in the last place of `m` stands for, where `m` counts units of 2^-(149 + e); at least that
of the subnormals. -/
def roundShift (m e : Nat) : Nat := max (m.log2 - 23) e

/-- `m / 2^k`, rounded to nearest, ties to even. -/
def roundDiv (m k : Nat) : Nat :=
  let q := m / 2 ^ k
  let r := m % 2 ^ k
  if 2 ^ k < 2 * r then q + 1
  else if 2 * r = 2 ^ k ∧ q % 2 = 1 then q + 1
  else q

/-- The binary32 value nearest to a sign and a magnitude of `m` units of 2^-(149 + e); what is too large becomes
infinity. -/
def f32Round (neg : Bool) (m e : Nat) : F32 :=
  if m = 0 then f32Pack neg 0
  else f32Pack neg (min ((roundShift m e - e) * 2 ^ 23 + roundDiv m (roundShift m e)) 0x7F800000)

/-- `f32(n)` (`00_scope.md` R18). -/
def f32OfNat (n : Nat) : F32 := f32Round false (n * 2 ^ 149) 0

/-- `fmul(a, b)` (`00_scope.md` R18). -/
def fmul (a b : F32) : F32 :=
  let neg := f32Neg a != f32Neg b
  if f32IsNaN a || f32IsNaN b then Config.freeNaN a b
  else if f32IsInf a || f32IsInf b then
    if (f32IsInf a && f32Mag b == 0 && !f32IsInf b) || (f32IsInf b && f32Mag a == 0 && !f32IsInf a) then
      Config.freeNaN a b
    else f32Inf neg
  else f32Round neg (f32Mag a * f32Mag b) 149

/-- The exact sum of two finite values: a sign and a magnitude in units of 2^-149. An exact zero is negative only when
both operands are. -/
def f32Sum (a b : F32) : Bool × Nat :=
  if f32Neg a = f32Neg b then (f32Neg a, f32Mag a + f32Mag b)
  else if f32Mag a = f32Mag b then (false, 0)
  else if f32Mag b < f32Mag a then (f32Neg a, f32Mag a - f32Mag b)
  else (f32Neg b, f32Mag b - f32Mag a)

/-- `fadd(a, b)` (`00_scope.md` R18). -/
def fadd (a b : F32) : F32 :=
  if f32IsNaN a || f32IsNaN b then Config.freeNaN a b
  else if f32IsInf a then if f32IsInf b && f32Neg a != f32Neg b then Config.freeNaN a b else a
  else if f32IsInf b then b
  else f32Round (f32Sum a b).1 (f32Sum a b).2 0

end Sys2Proof.Machine
end

