-- ==== Sys2Proof/Machine/Tables.lean ====
section
/-! DEFINITION. The constant tables SINC_W and FIR_H and the two platform predicates, made from the opaque parameters of
`Config` so that every instance the spec allows, and no other, is a value of them (`70_reset_and_hazards.md` R275). -/

namespace Sys2Proof.Machine

/-- `SINC_W[i]`: mirror-symmetric by construction (`00_scope.md` R10, log 7). -/
def sincW (i : Nat) : Word16 := BitVec.ofNat 16 (Config.sincHalf ⟨min i (63 - i), by omega⟩).val

/-- `SINC_SUM` (`00_scope.md` R10). -/
def sincSumAll : Nat := ((List.range Config.sincTaps).map fun i => (sincW i).toNat).sum

/-- The constraints on a tap set: every tap finite, and 161024 · Σ|h| < 2^127 (`40_pipeline.md` R128(d), R129). -/
def tapsValid (h : List F32) : Bool :=
  h.all f32Finite && decide (Config.sincSumMax * (h.map f32Mag).sum < 2 ^ 127 * 2 ^ 149)

/-- The tap set of the opaque parameters before the checks: N entries, symmetric (`00_scope.md` R12). -/
def firRawTaps : List F32 :=
  (List.range Config.firTaps).map fun j => Config.firRaw (min j (Config.firTaps - 1 - j))

/-- `FIR_H`. An instance that breaks the constraints is refused: it is no value of this table (`40_pipeline.md` R129,
log 8). -/
def firH : List F32 := if tapsValid firRawTaps then firRawTaps else List.replicate Config.firTaps 0#32

/-- `rate_ok` (`00_scope.md` R13, log 9). -/
def rateOk (r : Word) : Bool := r == Config.someRate || Config.otherRateOk r

/-- Whether the platform's memory accepts a write of the byte at this address; no byte exists at 2^32 or above
(`20_memory.md` R60, R69, log 10). Whether the register window is among the accepted addresses is left open, and what is
accepted there is plain memory (log 25). -/
def memAccepts (a : Nat) : Bool :=
  decide (a < 2 ^ 32) && (a / 4096 == Config.ramPage.val || Config.otherMemAccepts a)

end Sys2Proof.Machine
end

