-- ==== Sys2Proof/Machine/Ops.lean ====
section
/-! DEFINITION. The named operations over memory, registers and buffer halves, and the one operation that takes an
AcquisitionFault. -/

namespace Sys2Proof.Machine

/-- What a meaning answers. -/
abbrev Answer := Host.Outcome State Fault Refusal

/-- Sequencing: the second part runs on the state the first part leaves. -/
def andThen (o : Answer) (f : State → Answer) : Answer :=
  match o with
  | .next s => f s
  | .fault r => .fault r
  | .refused r => .refused r

/-! ### System memory -/

/-- The byte at an address, where one was written. -/
def Memory.readByte : Memory → Nat → Option Byte
  | [], _ => none
  | (k, v) :: rest, a => if a = k then some v else if a < k then none else Memory.readByte rest a

/-- The memory with one byte written. -/
def Memory.writeByte : Memory → Nat → Byte → Memory
  | [], a, b => [(a, b)]
  | (k, v) :: rest, a, b =>
    if a < k then (a, b) :: (k, v) :: rest
    else if a = k then (a, b) :: rest
    else (k, v) :: Memory.writeByte rest a b

/-- Every listed address is at least `lo`, and they strictly rise from there to below 2^32. -/
def Memory.risesFrom : Nat → Memory → Bool
  | _, [] => true
  | lo, (k, _) :: rest => decide (lo ≤ k) && decide (k < 2 ^ 32) && Memory.risesFrom (k + 1) rest

/-- The canonical form: addresses strictly rising, each of them one of the 2^32 that exist. -/
def Memory.wf (m : Memory) : Bool := Memory.risesFrom 0 m

/-- `MemWrite(a, 2, v)`, little-endian (`20_memory.md` R63). -/
def Memory.writeSample (m : Memory) (a : Nat) (v : Word16) : Memory :=
  Memory.writeByte (Memory.writeByte m a (v.extractLsb' 0 8)) (a + 1) (v.extractLsb' 8 8)

/-- The sample at an address, little-endian, where both its bytes were written (`20_memory.md` R63). -/
def Memory.readSample (m : Memory) (a : Nat) : Option Word16 :=
  match Memory.readByte m a, Memory.readByte m (a + 1) with
  | some lo, some hi => some (hi ++ lo)
  | _, _ => none

/-! ### Results, requests, latches -/

/-- `result(code, detail)` (`10_state.md` R31). -/
def State.setResult (s : State) (r : ResultCode) (d : DetailCode) : State := { s with result := r, detail := d }

/-- `Submit(cb, arg)` (`42_stream.md` R186). -/
def State.submit (s : State) (cb arg : Word) : State := { s with submitted := s.submitted ++ [⟨cb, arg⟩] }

/-- What a datapath operation run on its own returns (log 14). -/
def State.setRet (s : State) (v : Word) : State := { s with ret := v }

/-- What a register read returns to the host (log 15). -/
def State.setBus (s : State) (v : Word) : State := { s with busData := v }

/-- The rest of the schedule (log 1). -/
def State.setInputs (s : State) (l : List Input) : State := { s with inputs := l }

/-! ### Buffer halves -/

/-- `PEND[h]`. -/
def State.pend (s : State) : Half → Bool
  | .first => s.pend0
  | .second => s.pend1

/-- `OWN[h]`: true when the sequencer owns the half. -/
def State.own (s : State) : Half → Bool
  | .first => s.own0
  | .second => s.own1

/-- The half a buffer index lies in, `IDX[2]` (`30_encoding.md` R100). -/
def halfOfIndex (k : Nat) : Half := if k < Config.halfWords then .first else .second

/-- `BUF[idx] <- data` and `WRITTEN[idx] <- 1` (`41_acquisition.md` R151). -/
def State.putWord (s : State) (idx : BitVec 3) (data : Word16) : State :=
  { s with
    buf := s.buf.set idx.toNat data idx.isLt
    written := s.written.set idx.toNat true idx.isLt }

/-- The half goes to the sequencer: the last line of ACCEPT (`41_acquisition.md` R152). -/
def State.takeHalf (s : State) : Half → State
  | .first => { s with own0 := true, pend0 := true, nextEvt := .second }
  | .second => { s with own1 := true, pend1 := true, nextEvt := .first }

/-- The half goes back to the producer: the last two lines of SEQ_PROCESS (`41_acquisition.md` R160). -/
def State.returnHalf (s : State) : Half → State
  | .first => { s with own0 := false, pend0 := false, nextProc := .second }
  | .second => { s with own1 := false, pend1 := false, nextProc := .first }

/-- Every half at the producer and nothing pending. -/
def State.clearHalves (s : State) : State :=
  { s with pend0 := false, pend1 := false, own0 := false, own1 := false }

/-- The zeroed delay line (`10_state.md` R41). -/
def zeroDelay : List F32 := List.replicate Config.firTaps 0#32

/-- No word written (`10_state.md` R43). -/
def noneWritten : Vector Bool 8 := #v[false, false, false, false, false, false, false, false]

/-- The free words BUF holds after the draw of the given number (`10_state.md` R43, log 5). -/
def freeBuf (n : Nat) : Vector Word16 8 :=
  #v[Config.freeBufWord n 0, Config.freeBufWord n 1, Config.freeBufWord n 2, Config.freeBufWord n 3,
     Config.freeBufWord n 4, Config.freeBufWord n 5, Config.freeBufWord n 6, Config.freeBufWord n 7]

/-! ### Taking an AcquisitionFault -/

/-- FAULT_ENTRY(cause, h): the cause and the half are recorded, the block stops and disarms, pending halves are
discarded, and nothing else changes; there is no vector and no saved return state (`60_exceptions.md` R240). No step
returns from it: DEINIT is the only exit from Stopped (R243). -/
def State.faultEntry (s : State) (cause : FaultCause) (h : Half) : State :=
  { s with
    fault := true, faultCause := cause, faultHalf := h
    st := .stopped
    armed := false
    pend0 := false, pend1 := false, own0 := false, own1 := false }

/-- `raise AcquisitionFault(cause, h)` as the answer of a meaning. -/
def raiseFault (s : State) (cause : FaultCause) (h : Half) : Answer := .next (s.faultEntry cause h)

/-- A producer input: ignored while the block is disarmed (`41_acquisition.md` R157). -/
def whileArmed (s : State) (o : Answer) : Answer := if s.armed then o else .next s

end Sys2Proof.Machine
end

