-- ==== Sys2Proof/Machine/Operands.lean ====
section
/-! DEFINITION. How commands and deliveries form their operands (`30_encoding.md` R96). -/

namespace Sys2Proof.Machine

/-- A handle is "not invocable" exactly when it is 0 (`43_controller.md` R203). -/
def invocable (handle : Word) : Bool := handle != 0#32

/-- The end of a destination of `len` samples at `addr`, computed exactly (`30_encoding.md` R96). -/
def destEnd (addr len : Word) : Nat := addr.toNat + 2 * len.toNat

/-- START's destination check: even, and not past 2^32 (`42_stream.md` R180). -/
def destOk (addr len : Word) : Bool := !addr.getLsbD 0 && decide (destEnd addr len ≤ 2 ^ 32)

/-- The byte address of the next sample, `DEST_ADDR + 2 × CURSOR` (`10_state.md` R35). -/
def State.sampleAddr (s : State) : Nat := s.destAddr.toNat + 2 * s.cursor.toNat

/-- Whether a byte address lies in the destination range (`10_state.md` R36). -/
def State.inDest (s : State) (a : Nat) : Bool := decide (s.destAddr.toNat ≤ a) && decide (a < destEnd s.destAddr s.destLen)

/-- The words of a half, in index order (`10_state.md` R40). -/
def State.halfWords (s : State) : Half → List Word16
  | .first => [s.buf[0], s.buf[1], s.buf[2], s.buf[3]]
  | .second => [s.buf[4], s.buf[5], s.buf[6], s.buf[7]]

/-- The first index of the half whose word the producer has not rewritten (`40_pipeline.md` R122). -/
def State.firstUnwritten (s : State) : Half → Option Nat
  | .first =>
    if !s.written[0] then some 0 else if !s.written[1] then some 1
    else if !s.written[2] then some 2 else if !s.written[3] then some 3 else none
  | .second =>
    if !s.written[4] then some 4 else if !s.written[5] then some 5
    else if !s.written[6] then some 6 else if !s.written[7] then some 7 else none

/-- BUF with the words of a half replaced. -/
def State.setHalfWords (s : State) (h : Half) (l : List Word16) : State :=
  match h with
  | .first => { s with buf := #v[l.getD 0 0#16, l.getD 1 0#16, l.getD 2 0#16, l.getD 3 0#16,
                                 s.buf[4], s.buf[5], s.buf[6], s.buf[7]] }
  | .second => { s with buf := #v[s.buf[0], s.buf[1], s.buf[2], s.buf[3],
                                  l.getD 0 0#16, l.getD 1 0#16, l.getD 2 0#16, l.getD 3 0#16] }

/-- `WRITTEN[4h + k] <- 0` for the four words of a half (`41_acquisition.md` R160). -/
def State.clearWritten (s : State) (h : Half) : State :=
  match h with
  | .first => { s with written := #v[false, false, false, false,
                                     s.written[4], s.written[5], s.written[6], s.written[7]] }
  | .second => { s with written := #v[s.written[0], s.written[1], s.written[2], s.written[3],
                                      false, false, false, false] }

end Sys2Proof.Machine
end

