-- ==== Sys2Proof/Machine/Controller.lean ====
section
/-! DEFINITION. The device controller: CONFIGURE, REGISTER_CALLBACK, DEINIT and the illegal command words
(`43_controller.md`, `30_encoding.md` R97). -/

namespace Sys2Proof.Machine

/-- The binding has answered; what it answers next is a free value (`43_controller.md` R200, log 4). -/
def State.drawBinding (s : State) : State :=
  { s with binding := Config.freeBinding s.draws, draws := s.draws + 1 }

/-- CONFIGURE's effect once every check and the binding are passed (`43_controller.md` R200). -/
def State.configureDone (s : State) : State :=
  { s.clearHalves with
    rate := s.arg0
    delay := zeroDelay
    buf := freeBuf s.draws
    written := noneWritten
    nextEvt := .first, nextProc := .first
    fault := false, faultCause := .none, faultHalf := .first
    armed := true
    st := .configured
    result := .ok, detail := .none }.drawBinding

/-- The binding's outcome decides (`43_controller.md` R200). -/
def State.bindAndArm (s : State) : State :=
  match s.binding with
  | .ok => s.configureDone
  | .clockFail => s.drawBinding.setResult .configError .clockFail
  | .bindFail => s.drawBinding.setResult .configError .bindFail
  | .armFail => s.drawBinding.setResult .configError .armFail

/-- CONFIGURE's state after: the first failing check decides (`43_controller.md` R200, R201). -/
def State.configureResult (s : State) : State :=
  if s.st ≠ .uninitialized then s.setResult .badState .none
  else if !rateOk s.arg0 then s.setResult .configError .badRate
  else if Config.wordBits * Config.halfWords ≠ Config.sincTaps then s.setResult .configError .tableMismatch
  else s.bindAndArm

/-- CONFIGURE (`43_controller.md` R200). -/
def execConfigure (s : State) : Answer := .next s.configureResult

/-- REGISTER_CALLBACK (`43_controller.md` R202). -/
def execRegisterCallback (s : State) : Answer :=
  if s.st = .uninitialized then .next (s.setResult .badState .none)
  else if !invocable s.arg0 then .next (s.setResult .invalidCallback .none)
  else .next ({ s with cb := s.arg0 }.setResult .ok .none)

/-- DEINIT's effect (`43_controller.md` R210): ARG0 to ARG2, BUF, SUBMITTED and memory are kept. -/
def State.deinitDone (s : State) : State :=
  { s.clearHalves with
    armed := false
    st := .uninitialized
    nextEvt := .first, nextProc := .first
    delay := zeroDelay
    written := noneWritten
    cursor := 0#32, destAddr := 0#32, destLen := 0#32
    cb := 0#32, rate := 0#32, lastSinc := 0#32, lastPcm := 0#16
    fault := false, faultCause := .none, faultHalf := .first
    result := .ok, detail := .none }

/-- DEINIT: legal in every state (`43_controller.md` R210). -/
def execDeinit (s : State) : Answer := .next s.deinitDone

/-- An illegal command word: exactly `result(ILLEGAL_CMD, 0)` (`30_encoding.md` R97). -/
def execIllegalCmd (_op : BitVec 8) (_rsv : BitVec 24) (s : State) : Answer := .next (s.setResult .illegalCmd .none)

end Sys2Proof.Machine
end

