-- ==== Sys2Proof/Machine/Acquisition.lean ====
section
/-! DEFINITION. The acquisition buffer controller: the producer's word write and its events (`41_acquisition.md`). -/

namespace Sys2Proof.Machine

/-- ACCEPT(h): the order is tested before the ownership (`41_acquisition.md` R152, `60_exceptions.md` R234). -/
def acceptHalf (h : Half) (s : State) : Answer :=
  if h ≠ s.nextEvt then raiseFault s .sequence h
  else if s.own h then raiseFault s .overrunDetected h
  else .next (s.takeHalf h)

/-- A reserved event code (`30_encoding.md` R99). -/
def reservedEvent (s : State) : Answer := whileArmed s (raiseFault s .badEvent .first)

/-- PDM_WR(idx, data) (`41_acquisition.md` R151). -/
def execPdmWr (idx : BitVec 3) (data : Word16) (s : State) : Answer :=
  whileArmed s
    (if s.own (halfOfIndex idx.toNat) then raiseFault s .overrunDetected (halfOfIndex idx.toNat)
     else .next (s.putWord idx data))

/-- EVT_HALF (`41_acquisition.md` R152). -/
def execEvtHalf (s : State) : Answer := whileArmed s (acceptHalf .first s)

/-- EVT_FULL (`41_acquisition.md` R153). -/
def execEvtFull (s : State) : Answer := whileArmed s (acceptHalf .second s)

/-- EVT_ERR_OVERRUN (`41_acquisition.md` R154). -/
def execEvtErrOverrun (s : State) : Answer := whileArmed s (raiseFault s .overrunReported .first)

/-- EVT_ERR_PERIPHERAL (`41_acquisition.md` R155). -/
def execEvtErrPeripheral (s : State) : Answer := whileArmed s (raiseFault s .peripheral .first)

/-- EVT_RESERVED, code 0x0 (`30_encoding.md` R99). -/
def execEvtReserved0 (s : State) : Answer := reservedEvent s

/-- EVT_RESERVED, code 0x5 (`30_encoding.md` R99). -/
def execEvtReserved5 (s : State) : Answer := reservedEvent s

/-- EVT_RESERVED, codes 0x6 and 0x7 (`30_encoding.md` R99). -/
def execEvtReserved67 (_low : BitVec 1) (s : State) : Answer := reservedEvent s

/-- EVT_RESERVED, codes 0x8 to 0xF (`30_encoding.md` R99). -/
def execEvtReserved8F (_low : BitVec 3) (s : State) : Answer := reservedEvent s

end Sys2Proof.Machine
end

