-- ==== Sys2Proof/Machine/Pipeline.lean ====
section
/-! DEFINITION. The datapath: SINC_DECIMATE, FIR_STEP and PCM_NARROW (`40_pipeline.md`). The pure functions take the
tables as arguments; the meanings give them the block's. -/

namespace Sys2Proof.Machine

/-! ### Sinc decimator -/

/-- `n` bits of one word, least significant first: the running sum, and what is left of the word
(the inner loop of `40_pipeline.md` R120). `i` is the weight index. -/
def sincBits (W : Nat → Word16) : Nat → Nat → Word16 → Word → Word × Word16
  | 0, _, w, acc => (acc, w)
  | n + 1, i, w, acc => sincBits W n (i + 1) (w >>> 1) (if w.getLsbD 0 then acc + (W i).setWidth 32 else acc)

/-- The words of a half in increasing order: the sum, and what is left of each word (`40_pipeline.md` R120, R121). -/
def sincWords (W : Nat → Word16) : List Word16 → Nat → Word → Word × List Word16
  | [], _, acc => (acc, [])
  | w :: ws, i, acc =>
    let r := sincBits W Config.wordBits i w acc
    let q := sincWords W ws (i + Config.wordBits) r.1
    (q.1, r.2 :: q.2)

/-- The sinc sum of a half under a weight table (`40_pipeline.md` R120). -/
def sincSum (W : Nat → Word16) (ws : List Word16) : Word := (sincWords W ws 0 0#32).1

/-- What SINC_DECIMATE leaves in the words of the half (`40_pipeline.md` R121). -/
def sincResidue (W : Nat → Word16) (ws : List Word16) : List Word16 := (sincWords W ws 0 0#32).2

/-- The sinc sum of the words a half holds, with the block's table. -/
def State.sincOf (s : State) (h : Half) : Word := sincSum sincW (s.halfWords h)

/-- SINC_DECIMATE's write: the shifted-out words go back into the half (`40_pipeline.md` R121). -/
def State.consumeHalf (s : State) (h : Half) : State := s.setHalfWords h (sincResidue sincW (s.halfWords h))

/-- SINC_DECIMATE(h) (`40_pipeline.md` R120): the sum is returned, the half's words are shifted out in place; a word the
producer has not rewritten is the model fault of R122. -/
def execSincDecimate (h : Half) (s : State) : Answer :=
  match s.firstUnwritten h with
  | some k => .fault (.unwrittenBufferRead k)
  | none => .next ((s.consumeHalf h).setRet (s.sincOf h))

/-! ### FIR smoother -/

/-- Shift-and-insert: the new input first, the oldest of `n` entries dropped (`40_pipeline.md` R125). -/
def firShift (n : Nat) (u : F32) (d : List F32) : List F32 := (u :: d).take n

/-- The default `fir_eval`: products and sums rounded separately, in increasing tap index (`40_pipeline.md` R126). -/
def firEval (h d : List F32) : F32 := (h.zip d).foldl (fun acc p => fadd acc (fmul p.1 p.2)) 0#32

/-- The delay line after the input `x` (`40_pipeline.md` R125). -/
def State.delayAfter (s : State) (x : Word) : List F32 := firShift Config.firTaps (f32OfNat x.toNat) s.delay

/-- The output for the input `x` (`40_pipeline.md` R125). -/
def State.firOut (s : State) (x : Word) : F32 := firEval firH (s.delayAfter x)

/-- FIR_STEP's write: D (`40_pipeline.md` R125). -/
def State.firPush (s : State) (x : Word) : State := { s with delay := s.delayAfter x }

/-- FIR_STEP(s) (`40_pipeline.md` R125). -/
def execFirStep (x : Word) (s : State) : Answer := .next ((s.firPush x).setRet (s.firOut x))

/-! ### Narrowing -/

/-- The default `pcm_narrow`: truncation toward zero and saturation (`40_pipeline.md` R130); the spec states no value
for an infinity or NaN (log 13). -/
def pcmNarrow (y : F32) : Word16 :=
  if f32Finite y then
    let t := f32Mag y / 2 ^ 149
    if f32Neg y then BitVec.ofNat 16 (2 ^ 16 - min t 32768) else BitVec.ofNat 16 (min t 32767)
  else Config.freeNarrow y

/-- PCM_NARROW(y) (`40_pipeline.md` R130): no state is written. -/
def execPcmNarrow (y : F32) (s : State) : Answer := .next (s.setRet ((pcmNarrow y).setWidth 32))

/-! ### The pipeline as a whole -/

/-- The PCM sample of a half (PIPE, `40_pipeline.md` R132). -/
def State.sampleOf (s : State) (h : Half) : Word16 := pcmNarrow (s.firOut (s.sincOf h))

/-- LAST_SINC and LAST_PCM (`10_state.md` R39). -/
def State.setLast (s : State) (v : Word) (p : Word16) : State := { s with lastSinc := v, lastPcm := p }

/-- SEQ_PROCESS down to the clearing of WRITTEN: the pipeline runs on the half, LAST_SINC and LAST_PCM record it
(`41_acquisition.md` R160). -/
def State.pipeHalf (s : State) (h : Half) : State :=
  (((s.consumeHalf h).firPush (s.sincOf h)).clearWritten h).setLast (s.sincOf h) (s.sampleOf h)

end Sys2Proof.Machine
end

