-- ==== Sys2Proof/Machine/Flags.lean ====
section
/-! DEFINITION. The STATUS word and the derived flags (`10_state.md` R28 to R34, R47). No datapath operation sets a
flag. -/

namespace Sys2Proof.Machine

/-- STATE's encoding (`10_state.md` R29). -/
def DeviceState.code : DeviceState → BitVec 2
  | .uninitialized => 0#2
  | .configured => 1#2
  | .capturing => 2#2
  | .stopped => 3#2

/-- RESULT's encoding (`30_encoding.md` R94). -/
def ResultCode.code : ResultCode → BitVec 4
  | .ok => 0#4
  | .configError => 1#4
  | .alreadyInProgress => 2#4
  | .invalidCallback => 3#4
  | .badState => 4#4
  | .badDest => 5#4
  | .illegalCmd => 6#4

/-- DETAIL's encoding (`30_encoding.md` R95). -/
def DetailCode.code : DetailCode → BitVec 4
  | .none => 0#4
  | .badRate => 1#4
  | .tableMismatch => 2#4
  | .clockFail => 3#4
  | .bindFail => 4#4
  | .armFail => 5#4

/-- FAULT_CAUSE's encoding (`60_exceptions.md` R233). -/
def FaultCause.code : FaultCause → BitVec 4
  | .none => 0#4
  | .overrunReported => 1#4
  | .peripheral => 2#4
  | .overrunDetected => 3#4
  | .sequence => 4#4
  | .badEvent => 5#4

/-- IN_PROGRESS: `STATE = 2` (`10_state.md` R30). -/
def State.inProgress (s : State) : Bool := s.st == .capturing

/-- The output line `fault_o` (`10_state.md` R44). -/
def State.faultLine (s : State) : Bool := s.fault

/-- When SEQ_PROCESS is enabled (`41_acquisition.md` R160). -/
def State.seqEnabled (s : State) : Bool := s.armed && s.pend s.nextProc

/-- STATUS as a host reads it (`10_state.md` R28). -/
def State.statusWord (s : State) : Word :=
  0#8 ++ s.nextProc.bit ++ s.nextEvt.bit ++ BitVec.ofBool s.own1 ++ BitVec.ofBool s.own0 ++ BitVec.ofBool s.pend1
    ++ BitVec.ofBool s.pend0 ++ BitVec.ofBool s.armed ++ s.faultHalf.bit ++ s.faultCause.code ++ s.detail.code
    ++ s.result.code ++ BitVec.ofBool s.fault ++ BitVec.ofBool s.inProgress ++ s.st.code

end Sys2Proof.Machine
end

