-- ==== Sys2Proof/Machine/Stream.lean ====
section
/-! DEFINITION. The stream descriptor: START, CANCEL, sample delivery and completion (`42_stream.md`). -/

namespace Sys2Proof.Machine

/-- START's effect on a zero-length destination: the request is submitted at once (`42_stream.md` R183). -/
def State.startEmpty (s : State) : State := ({ s with cb := s.arg2 }.submit s.arg2 s.arg0).setResult .ok .none

/-- START's effect when it arms a capture (`42_stream.md` R180). -/
def State.armCapture (s : State) : State :=
  { s with cb := s.arg2, destAddr := s.arg0, destLen := s.arg1, cursor := 0#32, st := .capturing }.setResult .ok .none

/-- START: the first failing check decides, and every failing path writes only RESULT and DETAIL (`42_stream.md` R180,
R181, R183). -/
def execStart (s : State) : Answer :=
  if s.st = .uninitialized ∨ s.st = .stopped then .next (s.setResult .badState .none)
  else if s.st = .capturing then .next (s.setResult .alreadyInProgress .none)
  else if !invocable s.arg2 then .next (s.setResult .invalidCallback .none)
  else if s.arg1 = 0#32 then .next s.startEmpty
  else if !destOk s.arg0 s.arg1 then .next (s.setResult .badDest .none)
  else .next s.armCapture

/-- CANCEL: legal in every state, and only RESULT outside Capturing (`42_stream.md` R188). -/
def execCancel (s : State) : Answer :=
  .next ((if s.inProgress then { s with st := .configured } else s).setResult .ok .none)

/-- COMPLETE(): the capture ends and its request is submitted (`42_stream.md` R185). -/
def State.endCapture (s : State) : State := { s with st := .configured, cursor := 0#32 }.submit s.cb s.destAddr

/-- The sample write and the cursor's step (`42_stream.md` R184). -/
def State.storeSample (s : State) (p : Word16) : State :=
  { s with mem := Memory.writeSample s.mem s.sampleAddr p, cursor := s.cursor + 1#32 }

/-- ON_SAMPLE(p): the write, the cursor, and completion when the destination is full (`42_stream.md` R184). A write the
platform's memory refuses leaves the sequencer stuck (`20_memory.md` R69, log 10). An address inside the register window is
taken as plain memory, like any other: DESIGN CHOICE, unsafe (log 25). -/
def deliverSample (p : Word16) (s : State) : Answer :=
  if memAccepts s.sampleAddr && memAccepts (s.sampleAddr + 1) then
    .next (if s.cursor + 1#32 = s.destLen then (s.storeSample p).endCapture else s.storeSample p)
  else .fault (.sampleWriteRefused s.sampleAddr)

/-- ON_SAMPLE(p) (`42_stream.md` R184). -/
def execOnSample (p : Word16) (s : State) : Answer := deliverSample p s

/-- COMPLETE() (`42_stream.md` R185). -/
def execComplete (s : State) : Answer := .next s.endCapture

end Sys2Proof.Machine
end

