-- ==== Sys2Proof/Machine/Sequencer.lean ====
section
/-! DEFINITION. The half-buffer sequencer's one step (`41_acquisition.md` R160). -/

namespace Sys2Proof.Machine

/-- SEQ_PROCESS on the half NEXT_PROC (`41_acquisition.md` R160). -/
def processHalf (h : Half) (s : State) : Answer :=
  match s.firstUnwritten h with
  | some k => .fault (.unwrittenBufferRead k)
  | none =>
    andThen (if s.inProgress then deliverSample (s.sampleOf h) (s.pipeHalf h) else .next (s.pipeHalf h))
      fun t => .next (t.returnHalf h)

/-- SEQ_PROCESS: enabled exactly when ARMED = 1 and PEND[NEXT_PROC] = 1 (`41_acquisition.md` R160, R161). Where it is
not enabled the sequencer takes no step, and its turn leaves the state as it is (log 3). -/
def execSeqProcess (s : State) : Answer := if s.seqEnabled then processHalf s.nextProc s else .next s

end Sys2Proof.Machine
end

