-- ==== Sys2Proof/Machine/Dispatch.lean ====
section
/-! DEFINITION. One arm per constructor of `Instr`: its meaning. -/

namespace Sys2Proof.Machine

def exec (i : Instr) (s : State) : Host.Outcome State Fault Refusal :=
  match i with
  -- Host commands
  | .configure => Sys2Proof.Machine.execConfigure s
  | .start => Sys2Proof.Machine.execStart s
  | .registerCallback => Sys2Proof.Machine.execRegisterCallback s
  | .cancel => Sys2Proof.Machine.execCancel s
  | .deinit => Sys2Proof.Machine.execDeinit s
  | .illegalCmd op rsv => Sys2Proof.Machine.execIllegalCmd op rsv s
  -- Producer events
  | .evtHalf => Sys2Proof.Machine.execEvtHalf s
  | .evtFull => Sys2Proof.Machine.execEvtFull s
  | .evtErrOverrun => Sys2Proof.Machine.execEvtErrOverrun s
  | .evtErrPeripheral => Sys2Proof.Machine.execEvtErrPeripheral s
  | .evtReserved0 => Sys2Proof.Machine.execEvtReserved0 s
  | .evtReserved5 => Sys2Proof.Machine.execEvtReserved5 s
  | .evtReserved67 low => Sys2Proof.Machine.execEvtReserved67 low s
  | .evtReserved8F low => Sys2Proof.Machine.execEvtReserved8F low s
  -- Producer word write
  | .pdmWr idx data => Sys2Proof.Machine.execPdmWr idx data s
  -- Sequencer and datapath
  | .seqProcess => Sys2Proof.Machine.execSeqProcess s
  | .sincDecimate h => Sys2Proof.Machine.execSincDecimate h s
  | .firStep x => Sys2Proof.Machine.execFirStep x s
  | .pcmNarrow y => Sys2Proof.Machine.execPcmNarrow y s
  | .onSample p => Sys2Proof.Machine.execOnSample p s
  | .complete => Sys2Proof.Machine.execComplete s

end Sys2Proof.Machine
end

