-- ==== Sys2Proof/Machine/Bus.lean ====
section
/-! DEFINITION. What each input of the schedule does: the register window, the host's stores, the producer's ports, the
reset input; and how the instruction an input carries is fetched. -/

namespace Sys2Proof.Machine

/-! ### The register window -/

/-- What a 32-bit read at a 4-aligned offset returns (`10_state.md` R23, `20_memory.md` R66). -/
def State.readReg (s : State) (offset : BitVec 6) : Word :=
  if offset = 0x04#6 then s.arg0
  else if offset = 0x08#6 then s.arg1
  else if offset = 0x0C#6 then s.arg2
  else if offset = 0x10#6 then s.statusWord
  else if offset = 0x14#6 then s.cursor
  else if offset = 0x18#6 then s.destAddr
  else if offset = 0x1C#6 then s.destLen
  else if offset = 0x20#6 then s.cb
  else if offset = 0x24#6 then s.rate
  else if offset = 0x28#6 then s.lastSinc
  else if offset = 0x2C#6 then s.lastPcm.setWidth 32
  else 0#32

/-- What a 32-bit write at a 4-aligned offset other than CMD's stores; a read-only register or a reserved offset ignores
it (`20_memory.md` R66). -/
def State.writeReg (s : State) (offset : BitVec 6) (v : Word) : State :=
  if offset = 0x04#6 then { s with arg0 := v }
  else if offset = 0x08#6 then { s with arg1 := v }
  else if offset = 0x0C#6 then { s with arg2 := v }
  else s

/-- A legal register access: 32 bits wide, at a 4-aligned offset (`20_memory.md` R66). -/
def accessOk (offset : BitVec 6) (width : AccessWidth) : Bool := width == .w32 && offset.extractLsb' 0 2 == 0#2

/-- A host write to the window; a CMD write is no such store, it is an instruction. -/
def hostWrite (offset : BitVec 6) (width : AccessWidth) (v : Word) (s : State) : Answer :=
  if s.rst then .next s
  else if accessOk offset width then .next (s.writeReg offset v)
  else .fault (.registerAccessError offset width)

/-- A host read of the window; while `rst` is asserted it returns 0 (`70_reset_and_hazards.md` R270). -/
def hostRead (offset : BitVec 6) (width : AccessWidth) (s : State) : Answer :=
  if s.rst then .next (s.setBus 0#32)
  else if accessOk offset width then .next (s.setBus (s.readReg offset))
  else .fault (.registerAccessError offset width)

/-! ### System memory, the queue, the reset input -/

/-- A host store of one byte: into the armed destination it is the fault DestinationRace (`20_memory.md` R72, log 16). An
address inside the register window is taken as plain memory, like any other: DESIGN CHOICE, unsafe (log 25). -/
def hostStore (addr : Word) (v : Byte) (s : State) : Answer :=
  if s.inProgress && s.inDest addr.toNat then .fault (.destinationRace addr)
  else if memAccepts addr.toNat then .next { s with mem := Memory.writeByte s.mem addr.toNat v }
  else .fault (.hostStoreRefused addr)

/-- The deferred queue runs the oldest request it has not run (`42_stream.md` R186, log 19). -/
def State.runOldest (s : State) : State :=
  { s with queueRun := if s.queueRun < s.submitted.length then s.queueRun + 1 else s.queueRun }

/-- `rst` asserted: every piece of the block's state takes its reset value, BUF free words; SUBMITTED, system memory
and what stands outside the block are kept (`70_reset_and_hazards.md` R271, log 5, log 17). -/
def State.hardReset (s : State) : State :=
  { State.reset with
    buf := freeBuf s.draws
    submitted := s.submitted
    mem := s.mem
    rst := true
    inputs := s.inputs
    binding := s.binding
    draws := s.draws + 1
    ret := s.ret
    busData := s.busData
    queueRun := s.queueRun }

/-! ### Producer inputs presented together -/

/-- The error events: both error codes and the reserved ones (`60_exceptions.md` R236). -/
def isErrorCode (c : BitVec 4) : Bool := c != 0x1#4 && c != 0x2#4

/-- The events taken of those presented together: an error event and no half event, where there is one
(`41_acquisition.md` R156). -/
def arbitrateEvents (codes : List (BitVec 4)) : List (BitVec 4) :=
  match codes.find? isErrorCode with
  | some c => [c]
  | none => codes

/-- The order in which inputs presented together are taken, one a step: the write first (`41_acquisition.md` R156). -/
def arbitrate (write : Option (BitVec 19)) (codes : List (BitVec 4)) : List Input :=
  (match write with
    | some w => [Input.pdmWrite w]
    | none => []) ++ (arbitrateEvents codes).map Input.event

/-! ### Fetching and running -/

/-- The interface and the bytes of the instruction an input carries, if it carries one: a 32-bit write to CMD, an event,
a word write, or the sequencer's turn (`30_encoding.md` R90, R91). -/
def Input.carried : Input → Option (Port × List Byte)
  | .regWrite offset width v => if offset = 0x00#6 ∧ width = .w32 then some (.command, commandBytes v) else none
  | .regRead _ _ => none
  | .hostStore _ _ => none
  | .event c => some (.event, eventBytes c)
  | .pdmWrite w => some (.pdmWrite, pdmWriteBytes w)
  | .together _ _ => none
  | .bindingAnswer _ => none
  | .sequencer => some (.sequencer, [])
  | .runQueue => none
  | .resetAssert => none
  | .resetRelease => none

/-- An instruction that arrives: while `rst` is asserted it is ignored and the sequencer takes no step
(`70_reset_and_hazards.md` R270). -/
def runBytes (p : Port) (bytes : List Byte) (s : State) : Answer :=
  if s.rst then .next s
  else
    match decodeBytes p bytes with
    | .ok i => exec i s
    | .error e => .refused (.undecodable e)

/-- An input that carries no instruction. -/
def runOther (i : Input) (s : State) : Answer :=
  match i with
  | .regWrite offset width v => hostWrite offset width v s
  | .regRead offset width => hostRead offset width s
  | .hostStore addr v => hostStore addr v s
  | .event _ => .next s
  | .pdmWrite _ => .next s
  | .together write codes => .next (s.setInputs (arbitrate write codes ++ s.inputs))
  | .bindingAnswer b => .next { s with binding := b }
  | .sequencer => .next s
  | .runQueue => .next s.runOldest
  | .resetAssert => .next s.hardReset
  | .resetRelease => .next { s with rst := false }

/-- One input taken from the schedule. -/
def runInput (i : Input) (s : State) : Answer :=
  match i.carried with
  | some (p, bytes) => runBytes p bytes s
  | none => runOther i s

/-- Nothing is scheduled: an enabled sequencer takes its step, otherwise the machine idles (`41_acquisition.md` R161,
log 2). -/
def idleStep (s : State) : Answer := runInput .sequencer s

/-- The input that carries an instruction of the opcode table, its bits numbered as the table numbers them. -/
def inputOfTableWord (nbits w : Nat) : Input :=
  match portOfWidth nbits with
  | some .event => .event (BitVec.ofNat 4 w)
  | some .pdmWrite => .pdmWrite (BitVec.ofNat 19 w)
  | some .sequencer => .sequencer
  | some .command => .regWrite 0x00#6 .w32 (BitVec.ofNat 32 w)
  | none => .regWrite 0x00#6 .w32 (BitVec.ofNat 32 w)

end Sys2Proof.Machine
end

