-- ==== Sys2Proof/Machine/Step.lean ====
section
/-! DEFINITION. One step of the machine, and where it fetches its next instruction. -/

namespace Sys2Proof.Machine

/-- One atomic step of one agent: the next input of the schedule is taken and run (`20_memory.md` R67, R71, log 1). -/
def step (s : State) : Host.Outcome State Fault Refusal :=
  match s.inputs with
  | [] => idleStep s
  | i :: rest => runInput i (s.setInputs rest)

/-- `s` with an instruction of the opcode table as the next input of the schedule, and `rst` released, so that the very
next step runs it (log 1). -/
def State.withFetchWord (s : State) (nbits w : Nat) : State :=
  { s with inputs := inputOfTableWord nbits w :: s.inputs, rst := false }

end Sys2Proof.Machine
end

