-- ==== Sys2Proof/Safety.lean ====
section
/-! DEFINITION. The terms the statements use: which input a step runs, the invariant of every reachable state, running
several meanings in a row, and the datapath's values as the spec's closed forms give them. -/

namespace Sys2Proof.Machine

/-! ### Which instruction a step runs -/

/-- The host's commands (`30_encoding.md` R93). -/
def isCommand : Instr → Bool
  | .configure | .start | .registerCallback | .cancel | .deinit | .illegalCmd _ _ => true
  | .evtHalf | .evtFull | .evtErrOverrun | .evtErrPeripheral => false
  | .evtReserved0 | .evtReserved5 | .evtReserved67 _ | .evtReserved8F _ => false
  | .pdmWr _ _ => false
  | .seqProcess | .sincDecimate _ | .firStep _ | .pcmNarrow _ | .onSample _ | .complete => false

/-- The producer's inputs (`41_acquisition.md` R150). -/
def isProducer : Instr → Bool
  | .configure | .start | .registerCallback | .cancel | .deinit | .illegalCmd _ _ => false
  | .evtHalf | .evtFull | .evtErrOverrun | .evtErrPeripheral => true
  | .evtReserved0 | .evtReserved5 | .evtReserved67 _ | .evtReserved8F _ => true
  | .pdmWr _ _ => true
  | .seqProcess | .sincDecimate _ | .firStep _ | .pcmNarrow _ | .onSample _ | .complete => false

/-- The instruction an input carries, as the decoder reads it. -/
def Input.instr? (i : Input) : Option Instr :=
  match i.carried with
  | none => none
  | some (p, bytes) =>
    match decodeBytes p bytes with
    | .ok j => some j
    | .error _ => none

/-- The instruction the next step runs: the one the next input carries, the sequencer's when nothing is scheduled, none
while `rst` is asserted. -/
def State.nextInstr (s : State) : Option Instr :=
  if s.rst then none
  else
    match s.inputs with
    | [] => some .seqProcess
    | i :: _ => i.instr?

/-- The next input asserts `rst`. -/
def State.resetNext (s : State) : Bool :=
  match s.inputs with
  | .resetAssert :: _ => true
  | _ => false

/-! ### Running several meanings -/

/-- The meanings of a list of instructions, one after the other. -/
def execAll : List Instr → State → Answer
  | [], s => .next s
  | i :: rest, s => andThen (exec i s) (execAll rest)

/-! ### The datapath's values in closed form -/

/-- The closed form of the sinc sum (`40_pipeline.md` R120). -/
def sincClosed (ws : List Word16) : Nat :=
  ∑ k : Fin 4, ∑ b : Fin 16, if (ws.getD k.val 0#16).getLsbD b.val then (sincW (16 * k.val + b.val)).toNat else 0

/-- The 64-bit window of a half as its four words: bit `16k + b` is bit `b` of word `k` (`40_pipeline.md` R124(e)). -/
def windowWords (x : BitVec 64) : List Word16 :=
  [x.extractLsb' 0 16, x.extractLsb' 16 16, x.extractLsb' 32 16, x.extractLsb' 48 16]

/-- The four words of a half, `BUF[4h]` to `BUF[4h + 3]` (`10_state.md` R40). -/
def halfOf (s : State) (h : Half) : List Word16 :=
  [s.buf[4 * h.num]'(by cases h <;> decide), s.buf[4 * h.num + 1]'(by cases h <;> decide),
   s.buf[4 * h.num + 2]'(by cases h <;> decide), s.buf[4 * h.num + 3]'(by cases h <;> decide)]

/-- Every word of the half was written since it was last processed (`10_state.md` R43). -/
def halfWritten (s : State) (h : Half) : Bool :=
  s.written[4 * h.num]'(by cases h <;> decide) && s.written[4 * h.num + 1]'(by cases h <;> decide)
    && s.written[4 * h.num + 2]'(by cases h <;> decide) && s.written[4 * h.num + 3]'(by cases h <;> decide)

/-- A buffer with the words of one half at 0x0000 (`40_pipeline.md` R121). -/
def zeroHalf (b : Vector Word16 8) (h : Half) : Vector Word16 8 :=
  Vector.ofFn fun k => if k.val / 4 = h.num then 0#16 else b[k]

/-- The WRITTEN bits with those of one half at 0 (`41_acquisition.md` R160). -/
def unwriteHalf (w : Vector Bool 8) (h : Half) : Vector Bool 8 :=
  Vector.ofFn fun k => if k.val / 4 = h.num then false else w[k]

/-- The sinc sum of half `h`, as a register value. -/
def sincValue (s : State) (h : Half) : Word := BitVec.ofNat 32 (sincClosed (halfOf s h))

/-- The delay line once the input `x` is in it: `Dn[0] = f32(x)`, `Dn[j] = D[j-1]` (`40_pipeline.md` R125). -/
def delayWith (s : State) (x : Word) : List F32 := (f32OfNat x.toNat :: s.delay).take Config.firTaps

/-- The sample of half `h` (`40_pipeline.md` R132). -/
def sampleValue (s : State) (h : Half) : Word16 := pcmNarrow (firEval firH (delayWith s (sincValue s h)))

/-- What SEQ_PROCESS leaves when no sample is delivered (`41_acquisition.md` R160): the half consumed and given back,
the delay line advanced, LAST_SINC and LAST_PCM, and NEXT_PROC toggled; nothing else. -/
def seqLeaves (s : State) (h : Half) : State :=
  { s with
    buf := zeroHalf s.buf h
    written := unwriteHalf s.written h
    delay := delayWith s (sincValue s h)
    lastSinc := sincValue s h
    lastPcm := sampleValue s h
    pend0 := match h with
      | .first => false
      | .second => s.pend0
    pend1 := match h with
      | .first => s.pend1
      | .second => false
    own0 := match h with
      | .first => false
      | .second => s.own0
    own1 := match h with
      | .first => s.own1
      | .second => false
    nextProc := h.other }

/-- The platform's memory accepts a 16-bit write at `a` (`20_memory.md` R69). -/
def sampleFits (a : Nat) : Bool := memAccepts a && memAccepts (a + 1)

/-! ### Reachable states -/

/-- The states of every run from power-on reset, for every schedule of inputs and every answer of the binding. -/
inductive Reachable : State → Prop where
  | boot (l : List Input) (b : Binding) : Reachable { State.reset with inputs := l, binding := b }
  | next {s t : State} : Reachable s → step s = .next t → Reachable t

/-- What every reachable state satisfies: `10_state.md` R46 (I1, I2, I5 to I8), and what makes it inductive. -/
structure StateInv (s : State) : Prop where
  /-- I1: "The write cursor never exceeds the destination length". -/
  cursor_le : s.cursor.toNat ≤ s.destLen.toNat
  /-- I2: "The FIR delay line always has exactly tap-count elements". -/
  delay_length : s.delay.length = Config.firTaps
  /-- I5, first half. -/
  own_eq_pend : ∀ h, s.own h = s.pend h
  /-- I5, second half. -/
  pend_order : s.pend s.nextProc.other = true → s.pend s.nextProc = true
  /-- The event expected next is the one after those accepted and not yet processed (`10_state.md` R34). -/
  event_order : s.armed = true →
    s.nextEvt = if s.pend s.nextProc = s.pend s.nextProc.other then s.nextProc else s.nextProc.other
  /-- I6. -/
  armed_iff : s.armed = true ↔ s.st = .configured ∨ s.st = .capturing
  /-- I6. -/
  fault_iff : s.fault = true ↔ s.st = .stopped
  /-- FAULT_CAUSE and FAULT_HALF describe the fault, if there is one (`10_state.md` R32, `60_exceptions.md` R244). -/
  cause_iff : s.fault = true ↔ s.faultCause ≠ .none
  half_of_no_fault : s.fault = false → s.faultHalf = .first
  /-- I7, with what START checked (`42_stream.md` R180). -/
  capture_ok : s.st = .capturing → s.cb ≠ 0#32 ∧ s.cursor.toNat < s.destLen.toNat
    ∧ s.destAddr.getLsbD 0 = false ∧ s.destAddr.toNat + 2 * s.destLen.toNat ≤ 2 ^ 32
  /-- I8. -/
  quiet : s.st = .uninitialized ∨ s.st = .stopped → s.pend .first = false ∧ s.pend .second = false
  /-- The memory is in its canonical form. -/
  mem_wf : Memory.wf s.mem = true
  /-- While `rst` is asserted the block stays as reset left it (`70_reset_and_hazards.md` R270). -/
  reset_held : s.rst = true → s.st = .uninitialized
  /-- LAST_SINC keeps the sinc sum's bound (`40_pipeline.md` R123). -/
  sinc_le : s.lastSinc.toNat ≤ 161024
  /-- Every entry of the delay line is a converted sinc sum (`40_pipeline.md` R125, R127). -/
  delay_range : ∀ x ∈ s.delay, ∃ n, n ≤ 161024 ∧ x = f32OfNat n
  /-- The queue runs only what was submitted (`42_stream.md` R186). -/
  queue_le : s.queueRun ≤ s.submitted.length

end Sys2Proof.Machine
end

