-- ==== Sys2Proof/Certificates/Slice0/Obligations.lean ====
section
/-! DEFINITION. The statements for the provers. Each docstring names the rules of spec/ it formalises, or says that it is
the model's choice and names the log entry. -/

open Sys2Proof Sys2Proof.Machine

/-! ### Reset, invariants, runs -/

/-- `70_reset_and_hazards.md` R271: what State.reset holds, but for BUF, which the rule leaves unspecified. -/
def Obligations.PowerOnStateIsTheResetTable : Prop :=
  State.reset.arg0 = 0#32 ∧ State.reset.arg1 = 0#32 ∧ State.reset.arg2 = 0#32
    ∧ State.reset.statusWord = 0x00000000#32 ∧ State.reset.inProgress = false ∧ State.reset.faultLine = false
    ∧ State.reset.cursor = 0#32 ∧ State.reset.destAddr = 0#32 ∧ State.reset.destLen = 0#32 ∧ State.reset.cb = 0#32
    ∧ State.reset.rate = 0#32 ∧ State.reset.lastSinc = 0#32 ∧ State.reset.lastPcm = 0#16
    ∧ State.reset.delay.length = Config.firTaps ∧ (∀ x ∈ State.reset.delay, x = 0x00000000#32)
    ∧ (∀ k : Fin 8, State.reset.written[k] = false) ∧ State.reset.submitted = []

/-- `70_reset_and_hazards.md` R270, R271: asserting `rst` between two steps gives every piece of the block's state its
reset value, keeps SUBMITTED and system memory (memory: log 17), and says nothing of BUF. -/
def Obligations.AssertingResetRestoresTheResetTable : Prop :=
  ∀ (s : State) (rest : List Input), s.inputs = .resetAssert :: rest →
    ∃ t, step s = .next t ∧ t.rst = true ∧ t.inputs = rest
      ∧ t.arg0 = 0#32 ∧ t.arg1 = 0#32 ∧ t.arg2 = 0#32 ∧ t.statusWord = 0x00000000#32 ∧ t.faultLine = false
      ∧ t.st = .uninitialized ∧ t.armed = false ∧ (∀ h, t.pend h = false ∧ t.own h = false)
      ∧ t.nextEvt = .first ∧ t.nextProc = .first
      ∧ t.cursor = 0#32 ∧ t.destAddr = 0#32 ∧ t.destLen = 0#32 ∧ t.cb = 0#32 ∧ t.rate = 0#32
      ∧ t.lastSinc = 0#32 ∧ t.lastPcm = 0#16 ∧ t.delay = List.replicate Config.firTaps 0x00000000#32
      ∧ (∀ k : Fin 8, t.written[k] = false) ∧ t.submitted = s.submitted ∧ t.mem = s.mem

/-- `70_reset_and_hazards.md` R270: while `rst` is asserted, commands, register writes and producer inputs are ignored,
register reads return 0, and the sequencer takes no step; that accesses of another width or alignment are ignored too is
the model's choice (log 17). -/
def Obligations.AssertedResetIgnoresInputs : Prop :=
  ∀ (s : State) (rest : List Input), s.rst = true →
    (∀ off w v, s.inputs = .regWrite off w v :: rest → step s = .next { s with inputs := rest })
    ∧ (∀ off w, s.inputs = .regRead off w :: rest → step s = .next { s with inputs := rest, busData := 0#32 })
    ∧ (∀ c, s.inputs = .event c :: rest → step s = .next { s with inputs := rest })
    ∧ (∀ w, s.inputs = .pdmWrite w :: rest → step s = .next { s with inputs := rest })
    ∧ (s.inputs = .sequencer :: rest → step s = .next { s with inputs := rest })
    ∧ (s.inputs = .resetRelease :: rest → step s = .next { s with inputs := rest, rst := false })

/-- The invariant holds right after reset. -/
def Obligations.InvariantHoldsAtReset : Prop := StateInv State.reset

/-- `10_state.md` R46: every step of every agent keeps the invariant, from every state that has it. -/
def Obligations.EveryStepKeepsInvariant : Prop := ∀ s t : State, StateInv s → step s = .next t → StateInv t

/-- `10_state.md` R46, (I1), (I2) and (I5) to (I8), of every state that any schedule of inputs reaches from reset. -/
def Obligations.ReachableStatesAreLegal : Prop :=
  ∀ s : State, Reachable s →
    s.cursor.toNat ≤ s.destLen.toNat
    ∧ s.delay.length = Config.firTaps
    ∧ (∀ h, s.own h = s.pend h)
    ∧ (s.pend s.nextProc.other = true → s.pend s.nextProc = true)
    ∧ (s.armed = true ↔ s.st = .configured ∨ s.st = .capturing)
    ∧ (s.fault = true ↔ s.st = .stopped)
    ∧ (s.inProgress = true ↔ s.st = .capturing)
    ∧ (s.st = .capturing → s.cb ≠ 0#32 ∧ 1 ≤ s.destLen.toNat)
    ∧ (s.st = .uninitialized ∨ s.st = .stopped → s.pend .first = false ∧ s.pend .second = false)

/-! ### Encoding -/

/-- `30_encoding.md` R91, R105: when the next input carries bytes that decode to an instruction, the step is that
instruction's meaning on the state with the input taken; a CMD write, an event, a word write and the sequencer's turn
carry their own encodings; with nothing scheduled the sequencer has its turn (log 2). -/
def Obligations.StepRunsDecodedInstruction : Prop :=
  (∀ (s : State) (inp : Input) (rest : List Input) (p : Port) (bytes : List Byte) (i : Instr),
    s.inputs = inp :: rest → s.rst = false → inp.carried = some (p, bytes) → decodeBytes p bytes = .ok i →
    step s = exec i { s with inputs := rest })
  ∧ (∀ v, (Input.regWrite 0x00#6 .w32 v).carried = some (.command, commandBytes v))
  ∧ (∀ c, (Input.event c).carried = some (.event, eventBytes c))
  ∧ (∀ w, (Input.pdmWrite w).carried = some (.pdmWrite, pdmWriteBytes w))
  ∧ Input.sequencer.carried = some (.sequencer, [])
  ∧ (∀ s : State, s.inputs = [] → s.rst = false → step s = exec .seqProcess s)

/-- Decoding the encoding of a well-formed instruction gives the instruction back (`30_encoding.md` R93, R98, R100). -/
def Obligations.DecodeInvertsEncode : Prop :=
  ∀ (i : Instr) (p : Port) (bytes : List Byte), i.wf = true → encode i = some (p, bytes) → decodeBytes p bytes = .ok i

/-- `30_encoding.md` R104: every CMD32 word, every EVT4 code and every PDMWR19 write decodes, to a well-formed
instruction of its own interface, and to one whose encoding is that very input: no input has two meanings. -/
def Obligations.EveryWordHasOneMeaning : Prop :=
  (∀ w : Word, decodeBytes .command (commandBytes w) = .ok (decodeCommand w)
    ∧ (decodeCommand w).wf = true ∧ isCommand (decodeCommand w) = true
    ∧ encode (decodeCommand w) = some (.command, commandBytes w))
  ∧ (∀ c : BitVec 4, decodeBytes .event (eventBytes c) = .ok (decodeEvent c)
    ∧ isProducer (decodeEvent c) = true ∧ encode (decodeEvent c) = some (.event, eventBytes c))
  ∧ (∀ w : BitVec 19, decodeBytes .pdmWrite (pdmWriteBytes w) = .ok (decodePdmWrite w)
    ∧ decodePdmWrite w = .pdmWr (w.extractLsb' 16 3) (w.extractLsb' 0 16)
    ∧ encode (decodePdmWrite w) = some (.pdmWrite, pdmWriteBytes w))

/-- Words of `30_encoding.md` R93, R98 and R100, written out, decode to the instructions they stand for. -/
def Obligations.SpecWordsDecode : Prop :=
  decodeBytes .command [0x01#8, 0x00#8, 0x00#8, 0x00#8] = .ok .configure
    ∧ decodeBytes .command [0x05#8, 0x00#8, 0x00#8, 0x00#8] = .ok .deinit
    ∧ decodeBytes .command [0x02#8, 0x01#8, 0x00#8, 0x00#8] = .ok (.illegalCmd 0x02#8 0x000001#24)
    ∧ decodeBytes .event [0x01#8] = .ok .evtHalf
    ∧ decodeBytes .event [0x07#8] = .ok (.evtReserved67 1#1)
    ∧ decodeBytes .pdmWrite [0xEF#8, 0xBE#8, 0x02#8] = .ok (.pdmWr 2#3 0xBEEF#16)

/-! ### Host commands -/

/-- `30_encoding.md` R97: a word that is no command has exactly the effect `result(ILLEGAL_CMD, 0)`. -/
def Obligations.IllegalWordOnlyWritesResult : Prop :=
  (∀ w : Word, w ≠ 1#32 → w ≠ 2#32 → w ≠ 3#32 → w ≠ 4#32 → w ≠ 5#32 →
    ∀ s : State, exec (decodeCommand w) s = .next { s with result := .illegalCmd, detail := .none })
  ∧ ∀ op rsv (s : State), exec (.illegalCmd op rsv) s = .next { s with result := .illegalCmd, detail := .none }

/-- `43_controller.md` R200: a CONFIGURE that passes its checks and whose binding answers OK. BUF takes free words and the
binding's next answer is free (log 4, log 5); every other field is as it was. -/
def Obligations.ConfigureArmsTheBlock : Prop :=
  ∀ s : State, s.st = .uninitialized → rateOk s.arg0 = true → s.binding = .ok →
    exec .configure s = .next { s with
      rate := s.arg0
      delay := List.replicate Config.firTaps 0x00000000#32
      buf := freeBuf s.draws
      written := #v[false, false, false, false, false, false, false, false]
      own0 := false, own1 := false, pend0 := false, pend1 := false
      nextEvt := .first, nextProc := .first
      fault := false, faultCause := .none, faultHalf := .first
      armed := true, st := .configured, result := .ok, detail := .none
      binding := Config.freeBinding s.draws, draws := s.draws + 1 }

/-- `43_controller.md` R200, R216: a CONFIGURE that fails writes RESULT and DETAIL and nothing else of the block; only the
free answer of the binding is drawn anew where it was asked (log 4). -/
def Obligations.ConfigureFailuresWriteOnlyTheResult : Prop :=
  ∀ s : State,
    (s.st ≠ .uninitialized → exec .configure s = .next { s with result := .badState, detail := .none })
    ∧ (s.st = .uninitialized → rateOk s.arg0 = false ∨ s.binding ≠ .ok →
        exec .configure s = .next
          (if rateOk s.arg0 = true then
            { s with
              result := .configError
              detail := match s.binding with
                | .ok => .none
                | .clockFail => .clockFail
                | .bindFail => .bindFail
                | .armFail => .armFail
              binding := Config.freeBinding s.draws, draws := s.draws + 1 }
          else { s with result := .configError, detail := .badRate }))

/-- `43_controller.md` R202. -/
def Obligations.RegisterCallbackReplacesTheHandler : Prop :=
  ∀ s : State,
    (s.st = .uninitialized → exec .registerCallback s = .next { s with result := .badState, detail := .none })
    ∧ (s.st ≠ .uninitialized → s.arg0 = 0#32 →
        exec .registerCallback s = .next { s with result := .invalidCallback, detail := .none })
    ∧ (s.st ≠ .uninitialized → s.arg0 ≠ 0#32 →
        exec .registerCallback s = .next { s with cb := s.arg0, result := .ok, detail := .none })

/-- `43_controller.md` R210: what DEINIT writes in every state; ARG0 to ARG2, BUF, SUBMITTED and memory are kept. -/
def Obligations.DeinitClearsTheBlock : Prop :=
  ∀ s : State, exec .deinit s = .next { s with
    armed := false, st := .uninitialized
    own0 := false, own1 := false, pend0 := false, pend1 := false
    nextEvt := .first, nextProc := .first
    delay := List.replicate Config.firTaps 0x00000000#32
    written := #v[false, false, false, false, false, false, false, false]
    cursor := 0#32, destAddr := 0#32, destLen := 0#32, cb := 0#32, rate := 0#32, lastSinc := 0#32, lastPcm := 0#16
    fault := false, faultCause := .none, faultHalf := .first
    result := .ok, detail := .none }

/-- `42_stream.md` R180, R181, R183: START, check by check. -/
def Obligations.StartFollowsItsChecks : Prop :=
  ∀ s : State,
    (s.st = .uninitialized ∨ s.st = .stopped →
      exec .start s = .next { s with result := .badState, detail := .none })
    ∧ (s.st = .capturing → exec .start s = .next { s with result := .alreadyInProgress, detail := .none })
    ∧ (s.st = .configured → s.arg2 = 0#32 →
        exec .start s = .next { s with result := .invalidCallback, detail := .none })
    ∧ (s.st = .configured → s.arg2 ≠ 0#32 → s.arg1 = 0#32 →
        exec .start s = .next { s with
          cb := s.arg2, submitted := s.submitted ++ [⟨s.arg2, s.arg0⟩], result := .ok, detail := .none })
    ∧ (s.st = .configured → s.arg2 ≠ 0#32 → s.arg1 ≠ 0#32 →
        s.arg0.toNat % 2 = 1 ∨ 2 ^ 32 < s.arg0.toNat + 2 * s.arg1.toNat →
        exec .start s = .next { s with result := .badDest, detail := .none })
    ∧ (s.st = .configured → s.arg2 ≠ 0#32 → s.arg1 ≠ 0#32 →
        s.arg0.toNat % 2 = 0 → s.arg0.toNat + 2 * s.arg1.toNat ≤ 2 ^ 32 →
        exec .start s = .next { s with
          cb := s.arg2, destAddr := s.arg0, destLen := s.arg1, cursor := 0#32, st := .capturing
          result := .ok, detail := .none })

/-- `42_stream.md` R188. -/
def Obligations.CancelEndsACaptureSilently : Prop :=
  ∀ s : State,
    (s.st = .capturing → exec .cancel s = .next { s with st := .configured, result := .ok, detail := .none })
    ∧ (s.st ≠ .capturing → exec .cancel s = .next { s with result := .ok, detail := .none })

/-! ### Producer inputs and AcquisitionFault -/

/-- `41_acquisition.md` R152, R153: the half events, with ACCEPT. -/
def Obligations.HalfEventsAlternate : Prop :=
  ∀ s : State,
    (s.armed = false → exec .evtHalf s = .next s ∧ exec .evtFull s = .next s)
    ∧ (s.armed = true → s.nextEvt = .first →
        (s.own0 = false → exec .evtHalf s = .next { s with own0 := true, pend0 := true, nextEvt := .second })
        ∧ (s.own0 = true → exec .evtHalf s = .next (s.faultEntry .overrunDetected .first))
        ∧ exec .evtFull s = .next (s.faultEntry .sequence .second))
    ∧ (s.armed = true → s.nextEvt = .second →
        (s.own1 = false → exec .evtFull s = .next { s with own1 := true, pend1 := true, nextEvt := .first })
        ∧ (s.own1 = true → exec .evtFull s = .next (s.faultEntry .overrunDetected .second))
        ∧ exec .evtHalf s = .next (s.faultEntry .sequence .first))

/-- `41_acquisition.md` R151: a producer word write. -/
def Obligations.PdmWriteFillsTheProducersHalf : Prop :=
  ∀ (s : State) (idx : BitVec 3) (data : Word16),
    (s.armed = false → exec (.pdmWr idx data) s = .next s)
    ∧ (s.armed = true → s.own (Half.ofBit (idx.extractLsb' 2 1)) = false →
        exec (.pdmWr idx data) s = .next { s with
          buf := s.buf.set idx.toNat data idx.isLt
          written := s.written.set idx.toNat true idx.isLt })
    ∧ (s.armed = true → s.own (Half.ofBit (idx.extractLsb' 2 1)) = true →
        exec (.pdmWr idx data) s = .next (s.faultEntry .overrunDetected (Half.ofBit (idx.extractLsb' 2 1))))

/-- `41_acquisition.md` R154, R155: the two error events. -/
def Obligations.ErrorEventsStopTheBlock : Prop :=
  ∀ s : State,
    (s.armed = true → exec .evtErrOverrun s = .next (s.faultEntry .overrunReported .first)
      ∧ exec .evtErrPeripheral s = .next (s.faultEntry .peripheral .first))
    ∧ (s.armed = false → exec .evtErrOverrun s = .next s ∧ exec .evtErrPeripheral s = .next s)

/-- `30_encoding.md` R99: every reserved code, as decoded and by each of the table's four rows. -/
def Obligations.ReservedEventsRaiseBadEvent : Prop :=
  ∀ s : State,
    (∀ c : BitVec 4, c.toNat = 0 ∨ 5 ≤ c.toNat →
      (s.armed = true → exec (decodeEvent c) s = .next (s.faultEntry .badEvent .first))
      ∧ (s.armed = false → exec (decodeEvent c) s = .next s))
    ∧ (s.armed = true →
        exec .evtReserved0 s = .next (s.faultEntry .badEvent .first)
        ∧ exec .evtReserved5 s = .next (s.faultEntry .badEvent .first)
        ∧ (∀ l, exec (.evtReserved67 l) s = .next (s.faultEntry .badEvent .first))
        ∧ ∀ l, exec (.evtReserved8F l) s = .next (s.faultEntry .badEvent .first))

/-- `41_acquisition.md` R157: while ARMED = 0, every PDM_WR and every event is ignored. -/
def Obligations.DisarmedBlockIgnoresTheProducer : Prop :=
  ∀ (i : Instr) (s : State), isProducer i = true → s.armed = false → exec i s = .next s

/-- `60_exceptions.md` R240: a producer input that raises an AcquisitionFault finds the block armed and has exactly the
effect of fault entry: the cause and half recorded, STATE Stopped, disarmed, pending halves discarded. -/
def Obligations.FaultEntryHasNoOtherEffect : Prop :=
  ∀ (i : Instr) (s t : State), isProducer i = true → s.fault = false → exec i s = .next t → t.fault = true →
    s.armed = true ∧ ∃ c h, c ≠ FaultCause.none
      ∧ (c = .overrunReported ∨ c = .peripheral ∨ c = .badEvent → h = Half.first)
      ∧ t = { s with
          fault := true, faultCause := c, faultHalf := h, st := .stopped, armed := false
          pend0 := false, pend1 := false, own0 := false, own1 := false }

/-- `60_exceptions.md` R242: host commands and the sequencer never raise an AcquisitionFault. -/
def Obligations.OnlyProducerInputsRaiseFaults : Prop :=
  ∀ (i : Instr) (s t : State), isProducer i = false → exec i s = .next t → t.fault = true → s.fault = true

/-- `41_acquisition.md` R151 to R155, `60_exceptions.md` R240: what no producer input ever changes. -/
def Obligations.ProducerInputsKeepHostState : Prop :=
  ∀ (i : Instr) (s t : State), isProducer i = true → exec i s = .next t →
    t.arg0 = s.arg0 ∧ t.arg1 = s.arg1 ∧ t.arg2 = s.arg2 ∧ t.result = s.result ∧ t.detail = s.detail
      ∧ t.cursor = s.cursor ∧ t.destAddr = s.destAddr ∧ t.destLen = s.destLen ∧ t.cb = s.cb ∧ t.rate = s.rate
      ∧ t.lastSinc = s.lastSinc ∧ t.lastPcm = s.lastPcm ∧ t.delay = s.delay ∧ t.submitted = s.submitted
      ∧ (∀ a, Memory.readByte t.mem a = Memory.readByte s.mem a) ∧ t.nextProc = s.nextProc
      ∧ (t.st = s.st ∨ t.st = .stopped)

/-! ### Sequencer, delivery, completion -/

/-- Where SEQ_PROCESS is not enabled (`41_acquisition.md` R161) the sequencer's turn changes nothing: the model's choice,
log 3. -/
def Obligations.DisabledSequencerTurnChangesNothing : Prop :=
  ∀ s : State, s.armed = false ∨ s.pend s.nextProc = false → exec .seqProcess s = .next s

/-- `41_acquisition.md` R160, outside a capture: the half is processed, the sample recorded and discarded. -/
def Obligations.SequencerProcessesTheNextHalf : Prop :=
  ∀ s : State, s.armed = true → s.pend s.nextProc = true → halfWritten s s.nextProc = true → s.st ≠ .capturing →
    exec .seqProcess s = .next (seqLeaves s s.nextProc)

/-- `41_acquisition.md` R160 with `42_stream.md` R184, R185: in a capture the sample also goes to the destination, and the
last one completes the capture. -/
def Obligations.SequencerDeliversInACapture : Prop :=
  ∀ s : State, s.armed = true → s.pend s.nextProc = true → halfWritten s s.nextProc = true → s.st = .capturing →
    sampleFits s.sampleAddr = true →
    (s.cursor + 1#32 ≠ s.destLen →
      exec .seqProcess s = .next { seqLeaves s s.nextProc with
        mem := Memory.writeSample s.mem s.sampleAddr (sampleValue s s.nextProc)
        cursor := s.cursor + 1#32 })
    ∧ (s.cursor + 1#32 = s.destLen →
      exec .seqProcess s = .next { seqLeaves s s.nextProc with
        mem := Memory.writeSample s.mem s.sampleAddr (sampleValue s s.nextProc)
        cursor := 0#32
        st := .configured
        submitted := s.submitted ++ [⟨s.cb, s.destAddr⟩] })

/-- `40_pipeline.md` R122, `20_memory.md` R69: where an enabled SEQ_PROCESS stops: on a word that was not rewritten, and
on a sample write the memory refuses (the faults that stand for them: log 10, log 24). -/
def Obligations.SequencerStopsOnBrokenDuties : Prop :=
  ∀ s : State, s.armed = true → s.pend s.nextProc = true →
    (halfWritten s s.nextProc = false →
      ∃ k : Fin 8, k.val / 4 = s.nextProc.num ∧ s.written[k] = false
        ∧ exec .seqProcess s = .fault (.unwrittenBufferRead k.val))
    ∧ (halfWritten s s.nextProc = true → s.st = .capturing → sampleFits s.sampleAddr = false →
      exec .seqProcess s = .fault (.sampleWriteRefused s.sampleAddr))

/-- `42_stream.md` R184, `20_memory.md` R63: ON_SAMPLE stores the sample little-endian at `DEST_ADDR + 2 × CURSOR`, leaves
every other byte, steps the cursor, and completes the capture exactly when the cursor reaches the length; a write the
memory refuses leaves the sequencer without a step (`20_memory.md` R69), for which the named fault is the model's choice
(log 10). The completion is `42_stream.md` R185. -/
def Obligations.OnSampleStoresAndCompletes : Prop :=
  ∀ (p : Word16) (s : State),
    (sampleFits (s.destAddr.toNat + 2 * s.cursor.toNat) = false →
      exec (.onSample p) s = .fault (.sampleWriteRefused (s.destAddr.toNat + 2 * s.cursor.toNat)))
    ∧ (sampleFits (s.destAddr.toNat + 2 * s.cursor.toNat) = true →
    ∃ t, exec (.onSample p) s = .next t
      ∧ Memory.readByte t.mem (s.destAddr.toNat + 2 * s.cursor.toNat) = some (p.extractLsb' 0 8)
      ∧ Memory.readByte t.mem (s.destAddr.toNat + 2 * s.cursor.toNat + 1) = some (p.extractLsb' 8 8)
      ∧ (∀ a, a ≠ s.destAddr.toNat + 2 * s.cursor.toNat → a ≠ s.destAddr.toNat + 2 * s.cursor.toNat + 1 →
          Memory.readByte t.mem a = Memory.readByte s.mem a)
      ∧ (s.cursor + 1#32 ≠ s.destLen → t = { s with mem := t.mem, cursor := s.cursor + 1#32 })
      ∧ (s.cursor + 1#32 = s.destLen → t = { s with
          mem := t.mem, cursor := 0#32, st := .configured, submitted := s.submitted ++ [⟨s.cb, s.destAddr⟩] }))

/-- `42_stream.md` R185. -/
def Obligations.CompleteSubmitsTheRequest : Prop :=
  ∀ s : State, exec .complete s = .next { s with
    st := .configured, cursor := 0#32, submitted := s.submitted ++ [⟨s.cb, s.destAddr⟩] }

/-- `42_stream.md` R187 in the source's form: a START of length L that arms, followed by exactly L calls of ON_SAMPLE,
submits exactly one request, leaves the L samples in order at ARG0, ARG0 + 2, ..., every other byte as it was, STATE = 1
and CURSOR = 0. -/
def Obligations.CaptureOfLengthLIsComplete : Prop :=
  ∀ (s : State) (ps : List Word16), s.st = .configured → s.arg2 ≠ 0#32 → ps ≠ [] → ps.length = s.arg1.toNat →
    s.arg0.toNat % 2 = 0 → s.arg0.toNat + 2 * s.arg1.toNat ≤ 2 ^ 32 →
    (∀ k, k < 2 * ps.length → memAccepts (s.arg0.toNat + k) = true) →
    ∃ t, execAll (.start :: ps.map Instr.onSample) s = .next t
      ∧ (∀ (i : Nat) (hi : i < ps.length), Memory.readSample t.mem (s.arg0.toNat + 2 * i) = some ps[i])
      ∧ (∀ a, a < s.arg0.toNat ∨ s.arg0.toNat + 2 * ps.length ≤ a →
          Memory.readByte t.mem a = Memory.readByte s.mem a)
      ∧ t = { s with
          mem := t.mem, cb := s.arg2, destAddr := s.arg0, destLen := s.arg1, cursor := 0#32, st := .configured
          submitted := s.submitted ++ [⟨s.arg2, s.arg0⟩], result := .ok, detail := .none }

/-! ### The datapath -/

/-- `40_pipeline.md` R120, R121, R122: SINC_DECIMATE returns the closed-form sum and leaves the half's words at 0x0000;
where a word of the half was not rewritten it is the fault UnwrittenBufferRead. -/
def Obligations.SincDecimateSumsAndConsumes : Prop :=
  ∀ (h : Half) (s : State),
    (halfWritten s h = true →
      exec (.sincDecimate h) s = .next { s with buf := zeroHalf s.buf h, ret := sincValue s h })
    ∧ (halfWritten s h = false →
      ∃ k : Fin 8, k.val / 4 = h.num ∧ s.written[k] = false
        ∧ exec (.sincDecimate h) s = .fault (.unwrittenBufferRead k.val))

/-- `40_pipeline.md` R123: the sum lies between 0 and SINC_SUM, SINC_SUM is at most 161024, and the u32 accumulator holds
it without wrapping. -/
def Obligations.SincSumNeverOverflows : Prop :=
  ∀ w0 w1 w2 w3 : Word16,
    (sincSum sincW [w0, w1, w2, w3]).toNat = sincClosed [w0, w1, w2, w3]
    ∧ sincClosed [w0, w1, w2, w3] ≤ sincSumAll ∧ sincSumAll ≤ 161024

/-- `40_pipeline.md` R124: the six laws of the sum SINC_DECIMATE returns, on the 64-bit window of a half. -/
def Obligations.SincSumLaws : Prop :=
  (sincSum sincW (windowWords 0#64)).toNat = 0
  ∧ (sincSum sincW (windowWords (BitVec.allOnes 64))).toNat = sincSumAll
  ∧ (∀ i, i < 64 → (sincSum sincW (windowWords (BitVec.twoPow 64 i))).toNat = (sincW i).toNat)
  ∧ (∀ x y : BitVec 64, x &&& y = 0#64 →
      (sincSum sincW (windowWords (x ||| y))).toNat
        = (sincSum sincW (windowWords x)).toNat + (sincSum sincW (windowWords y)).toNat)
  ∧ (∀ x : BitVec 64,
      (sincSum sincW (windowWords x)).toNat + (sincSum sincW (windowWords (~~~x))).toNat = sincSumAll)
  ∧ (∀ x : BitVec 64, (sincSum sincW (windowWords x.reverse)).toNat = (sincSum sincW (windowWords x)).toNat)
  ∧ (∀ x y : BitVec 64, x &&& y = x →
      (sincSum sincW (windowWords x)).toNat ≤ (sincSum sincW (windowWords y)).toNat)

/-- `40_pipeline.md` R125, R126: FIR_STEP puts the converted input at position 0, moves every entry down by one, drops the
oldest, and returns the sum of products in increasing tap index over the new line (the default evaluation, log 12). -/
def Obligations.FirStepShiftsAndSums : Prop :=
  ∀ (x : Word) (s : State), s.delay.length = Config.firTaps →
    ∃ t, exec (.firStep x) s = .next t
      ∧ t = { s with delay := t.delay, ret := t.ret }
      ∧ t.delay.length = Config.firTaps
      ∧ t.delay[0]? = some (f32OfNat x.toNat)
      ∧ (∀ j, 1 ≤ j → j < Config.firTaps → t.delay[j]? = s.delay[j - 1]?)
      ∧ t.ret = (List.range Config.firTaps).foldl
          (fun acc j => fadd acc (fmul (firH.getD j 0#32) (t.delay.getD j 0#32))) 0x00000000#32

/-- `40_pipeline.md` R128(c): after as many steps as there are taps with one input, the delay line is constant, whatever it
held before, and the output is the evaluation on that constant line. -/
def Obligations.ConstantInputFillsTheDelayLine : Prop :=
  ∀ (x : Word) (s : State),
    ∃ t, execAll (List.replicate Config.firTaps (Instr.firStep x)) s = .next t
      ∧ t.delay = List.replicate Config.firTaps (f32OfNat x.toNat)
      ∧ t.ret = firEval firH (List.replicate Config.firTaps (f32OfNat x.toNat))

/-- `40_pipeline.md` R127: the conversion of a sinc sum to binary32 is exact. -/
def Obligations.InputConversionIsExact : Prop :=
  ∀ n : Nat, n ≤ 2 ^ 24 → f32Finite (f32OfNat n) = true ∧ f32Units (f32OfNat n) = (n : Int) * 2 ^ 149

/-- `00_scope.md` R18: `fadd` of finite values is the nearest binary32 value to the exact sum, even on a tie, and finite
whenever the exact sum is in range. -/
def Obligations.AdditionRoundsToNearestEven : Prop :=
  ∀ x y : F32, f32Finite x = true → f32Finite y = true →
    ((f32Units x + f32Units y).natAbs ≤ (2 ^ 24 - 1) * 2 ^ 253 → f32Finite (fadd x y) = true)
    ∧ (f32Finite (fadd x y) = true → ∀ z : F32, f32Finite z = true →
        (f32Units (fadd x y) - (f32Units x + f32Units y)).natAbs ≤ (f32Units z - (f32Units x + f32Units y)).natAbs
        ∧ ((f32Units (fadd x y) - (f32Units x + f32Units y)).natAbs
              = (f32Units z - (f32Units x + f32Units y)).natAbs →
            f32Units z ≠ f32Units (fadd x y) → (fadd x y).getLsbD 0 = false))

/-- `00_scope.md` R18: `fmul` of finite values is the nearest binary32 value to the exact product, even on a tie, and
finite whenever the exact product is in range. -/
def Obligations.MultiplicationRoundsToNearestEven : Prop :=
  ∀ x y : F32, f32Finite x = true → f32Finite y = true →
    ((f32Units x * f32Units y).natAbs ≤ (2 ^ 24 - 1) * 2 ^ 402 → f32Finite (fmul x y) = true)
    ∧ (f32Finite (fmul x y) = true → ∀ z : F32, f32Finite z = true →
        (f32Units (fmul x y) * 2 ^ 149 - f32Units x * f32Units y).natAbs
          ≤ (f32Units z * 2 ^ 149 - f32Units x * f32Units y).natAbs
        ∧ ((f32Units (fmul x y) * 2 ^ 149 - f32Units x * f32Units y).natAbs
              = (f32Units z * 2 ^ 149 - f32Units x * f32Units y).natAbs →
            f32Units z ≠ f32Units (fmul x y) → (fmul x y).getLsbD 0 = false))

/-- `40_pipeline.md` R130: PCM_NARROW truncates a finite value toward zero, saturates it to the signed 16-bit range, and
writes no state of the block, whatever its operand (the default narrowing, log 13). -/
def Obligations.PcmNarrowTruncatesAndSaturates : Prop :=
  ∀ (y : F32) (s : State),
    (f32Finite y = true → (pcmNarrow y).toInt = max (-32768) (min 32767 ((f32Units y).tdiv (2 ^ 149))))
    ∧ exec (.pcmNarrow y) s = .next { s with ret := (pcmNarrow y).setWidth 32 }

/-- `00_scope.md` R10, R12, `40_pipeline.md` R128(d), R129: the tables meet their constraints (by construction: log 7, log 8). -/
def Obligations.TablesMeetTheirConstraints : Prop :=
  (∀ i, i < 64 → (sincW i).toNat ≤ 2516 ∧ sincW i = sincW (63 - i))
  ∧ sincSumAll % 2 = 0
  ∧ Config.firTaps % 2 = 1 ∧ firH.length = Config.firTaps
  ∧ (∀ j, j < Config.firTaps → firH.getD j 0#32 = firH.getD (Config.firTaps - 1 - j) 0#32)
  ∧ (∀ h ∈ firH, f32Finite h = true)
  ∧ 161024 * (firH.map f32Mag).sum < 2 ^ 127 * 2 ^ 149

/-- `40_pipeline.md` R132, `41_acquisition.md` R160: what the pipeline computes from a half depends on the half, the delay
line and the tables alone, and on nothing the host holds or does. -/
def Obligations.PipelineIgnoresHostState : Prop :=
  ∀ s t s' t' : State, s.seqEnabled = true → t.seqEnabled = true → s.buf = t.buf → s.delay = t.delay →
    s.nextProc = t.nextProc → exec .seqProcess s = .next s' → exec .seqProcess t = .next t' →
    s'.lastSinc = t'.lastSinc ∧ s'.lastPcm = t'.lastPcm ∧ s'.delay = t'.delay ∧ s'.buf = t'.buf
      ∧ s'.nextProc = t'.nextProc

/-! ### Rules of the whole machine -/

/-- `43_controller.md` R215, `10_state.md` R29: every change of STATE, with its trigger; an asserted reset is the only
other one. -/
def Obligations.StateChangesOnlyByTheLifecycle : Prop :=
  ∀ s t : State, StateInv s → step s = .next t → t.st ≠ s.st →
    (s.nextInstr = some .configure ∧ s.st = .uninitialized ∧ t.st = .configured ∧ t.armed = true)
    ∨ (s.nextInstr = some .start ∧ s.st = .configured ∧ t.st = .capturing ∧ s.arg1 ≠ 0#32)
    ∨ (s.nextInstr = some .seqProcess ∧ s.st = .capturing ∧ t.st = .configured
        ∧ t.submitted = s.submitted ++ [⟨s.cb, s.destAddr⟩])
    ∨ (s.nextInstr = some .cancel ∧ s.st = .capturing ∧ t.st = .configured ∧ t.submitted = s.submitted)
    ∨ ((∃ i, s.nextInstr = some i ∧ isProducer i = true) ∧ (s.st = .configured ∨ s.st = .capturing)
        ∧ t.st = .stopped ∧ t.fault = true ∧ t.armed = false ∧ t.submitted = s.submitted)
    ∨ (s.nextInstr = some .deinit ∧ t.st = .uninitialized ∧ t.submitted = s.submitted)
    ∨ (s.resetNext = true ∧ t.st = .uninitialized)

/-- `10_state.md` R31: RESULT and DETAIL are written by command writes and by nothing else but reset. -/
def Obligations.ResultIsWrittenOnlyByCommands : Prop :=
  ∀ s t : State, step s = .next t → (∀ i, s.nextInstr = some i → isCommand i = false) → s.resetNext = false →
    t.result = s.result ∧ t.detail = s.detail

/-- `10_state.md` R44, `42_stream.md` R186: SUBMITTED only grows, by one request at a time, and only START and the
sequencer submit. -/
def Obligations.SubmittedOnlyGrows : Prop :=
  ∀ s t : State, step s = .next t →
    t.submitted = s.submitted
    ∨ ((s.nextInstr = some .start ∧ s.st = .configured ∨ s.nextInstr = some .seqProcess ∧ s.st = .capturing)
        ∧ ∃ r, t.submitted = s.submitted ++ [r])

/-- `20_memory.md` R60, R72: the block's only memory access is the sequencer's 16-bit sample write in a capture; every
other byte keeps what it held, unless the host stores it. -/
def Obligations.MemoryIsWrittenOnlyBySamplesAndHost : Prop :=
  ∀ s t : State, step s = .next t →
    (∀ a v rest, s.inputs ≠ .hostStore a v :: rest) →
    (∀ a, Memory.readByte t.mem a = Memory.readByte s.mem a)
    ∨ (s.nextInstr = some .seqProcess ∧ s.st = .capturing
        ∧ ∀ a, a ≠ s.sampleAddr → a ≠ s.sampleAddr + 1 → Memory.readByte t.mem a = Memory.readByte s.mem a)

/-- `41_acquisition.md` R162: every enabled step of the sequencer toggles NEXT_PROC, and only CONFIGURE, DEINIT and reset
write it otherwise, to half 0. -/
def Obligations.HalvesAreProcessedInAlternation : Prop :=
  ∀ s t : State, step s = .next t →
    (s.nextInstr = some .seqProcess → s.seqEnabled = true → t.nextProc = s.nextProc.other)
    ∧ (t.nextProc ≠ s.nextProc →
        (s.nextInstr = some .seqProcess ∧ s.seqEnabled = true)
        ∨ ((s.nextInstr = some .configure ∨ s.nextInstr = some .deinit ∨ s.resetNext = true) ∧ t.nextProc = .first))

/-- `41_acquisition.md` R163, `20_memory.md` R80: the producer changes only a half it owns, and the sequencer only the half
it owns; nothing else changes BUF while the block is armed. -/
def Obligations.HalvesAreExclusivelyOwned : Prop :=
  ∀ s t : State, StateInv s → step s = .next t → s.armed = true → s.resetNext = false →
    ∀ k : Fin 8, t.buf[k] ≠ s.buf[k] →
      (∃ idx data, s.nextInstr = some (.pdmWr idx data) ∧ k.val = idx.toNat ∧ t.buf[k] = data
        ∧ s.own (halfOfIndex k.val) = false)
      ∨ (s.nextInstr = some .seqProcess ∧ halfOfIndex k.val = s.nextProc ∧ s.own (halfOfIndex k.val) = true
        ∧ t.buf[k] = 0#16)

/-! ### The register window, the host's stores, inputs presented together -/

/-- `10_state.md` R28 to R34: where each field stands in STATUS, with its codes written out: STATE's (`10_state.md` R29),
RESULT's (`30_encoding.md` R94), DETAIL's (`30_encoding.md` R95), FAULT_CAUSE's (`60_exceptions.md` R233), and 0 and 1 for
the halves. -/
def Obligations.StatusWordLayout : Prop :=
  ∀ s : State,
    s.statusWord.extractLsb' 0 2 = (match s.st with
      | .uninitialized => 0#2
      | .configured => 1#2
      | .capturing => 2#2
      | .stopped => 3#2)
    ∧ (s.statusWord.getLsbD 2 = true ↔ s.st = .capturing)
    ∧ s.statusWord.getLsbD 3 = s.fault
    ∧ s.statusWord.extractLsb' 4 4 = (match s.result with
      | .ok => 0#4
      | .configError => 1#4
      | .alreadyInProgress => 2#4
      | .invalidCallback => 3#4
      | .badState => 4#4
      | .badDest => 5#4
      | .illegalCmd => 6#4)
    ∧ s.statusWord.extractLsb' 8 4 = (match s.detail with
      | .none => 0#4
      | .badRate => 1#4
      | .tableMismatch => 2#4
      | .clockFail => 3#4
      | .bindFail => 4#4
      | .armFail => 5#4)
    ∧ s.statusWord.extractLsb' 12 4 = (match s.faultCause with
      | .none => 0#4
      | .overrunReported => 1#4
      | .peripheral => 2#4
      | .overrunDetected => 3#4
      | .sequence => 4#4
      | .badEvent => 5#4)
    ∧ s.statusWord.extractLsb' 16 1 = (match s.faultHalf with
      | .first => 0#1
      | .second => 1#1)
    ∧ s.statusWord.getLsbD 17 = s.armed ∧ s.statusWord.getLsbD 18 = s.pend0 ∧ s.statusWord.getLsbD 19 = s.pend1
    ∧ s.statusWord.getLsbD 20 = s.own0 ∧ s.statusWord.getLsbD 21 = s.own1
    ∧ s.statusWord.extractLsb' 22 1 = (match s.nextEvt with
      | .first => 0#1
      | .second => 1#1)
    ∧ s.statusWord.extractLsb' 23 1 = (match s.nextProc with
      | .first => 0#1
      | .second => 1#1)
    ∧ s.statusWord.extractLsb' 24 8 = 0#8

/-- `20_memory.md` R66, `10_state.md` R23: a legal read returns the register's value, 0 for CMD and the reserved offsets,
and has no side effect. -/
def Obligations.RegisterReadsReturnTheMap : Prop :=
  ∀ (s : State) (off : BitVec 6) (rest : List Input), s.rst = false → off.toNat % 4 = 0 →
    s.inputs = .regRead off .w32 :: rest →
    ∃ v, step s = .next { s with inputs := rest, busData := v }
      ∧ (off = 0x00#6 → v = 0#32) ∧ (off = 0x04#6 → v = s.arg0) ∧ (off = 0x08#6 → v = s.arg1)
      ∧ (off = 0x0C#6 → v = s.arg2) ∧ (off = 0x10#6 → v = s.statusWord) ∧ (off = 0x14#6 → v = s.cursor)
      ∧ (off = 0x18#6 → v = s.destAddr) ∧ (off = 0x1C#6 → v = s.destLen) ∧ (off = 0x20#6 → v = s.cb)
      ∧ (off = 0x24#6 → v = s.rate) ∧ (off = 0x28#6 → v = s.lastSinc) ∧ (off = 0x2C#6 → v = 0#16 ++ s.lastPcm)
      ∧ (0x30 ≤ off.toNat → v = 0#32)

/-- `20_memory.md` R66: a legal write to ARG0, ARG1 or ARG2 stores the value; to a read-only or reserved offset it is
ignored. (A write to CMD is an instruction.) -/
def Obligations.RegisterWritesReachOnlyTheOperands : Prop :=
  ∀ (s : State) (off : BitVec 6) (v : Word) (rest : List Input), s.rst = false → off.toNat % 4 = 0 →
    s.inputs = .regWrite off .w32 v :: rest →
    (off = 0x04#6 → step s = .next { s with inputs := rest, arg0 := v })
    ∧ (off = 0x08#6 → step s = .next { s with inputs := rest, arg1 := v })
    ∧ (off = 0x0C#6 → step s = .next { s with inputs := rest, arg2 := v })
    ∧ (0x10 ≤ off.toNat → step s = .next { s with inputs := rest })

/-- `20_memory.md` R66, `60_exceptions.md` R245: an access that is not 32 bits wide or not 4-aligned is the fault
RegisterAccessError. -/
def Obligations.BadRegisterAccessesFault : Prop :=
  ∀ (s : State) (off : BitVec 6) (w : AccessWidth) (rest : List Input), s.rst = false →
    w ≠ .w32 ∨ off.toNat % 4 ≠ 0 →
    (∀ v, s.inputs = .regWrite off w v :: rest → step s = .fault (.registerAccessError off w))
    ∧ (s.inputs = .regRead off w :: rest → step s = .fault (.registerAccessError off w))

/-- `20_memory.md` R72: a host store into the armed destination range is the fault DestinationRace, the range's first and
last byte among them; outside it, an accepted store writes its byte and nothing else, and one the platform's memory
refuses is the model's own fault (log 16). -/
def Obligations.HostStoresRaceOnlyInTheArmedRange : Prop :=
  ∀ (s : State) (a : Word) (v : Byte) (rest : List Input), s.inputs = .hostStore a v :: rest →
    (s.st = .capturing → s.destAddr.toNat ≤ a.toNat → a.toNat < s.destAddr.toNat + 2 * s.destLen.toNat →
      step s = .fault (.destinationRace a))
    ∧ (s.st ≠ .capturing ∨ a.toNat < s.destAddr.toNat ∨ s.destAddr.toNat + 2 * s.destLen.toNat ≤ a.toNat →
      ∃ m, Memory.readByte m a.toNat = some v
        ∧ (∀ x, x ≠ a.toNat → Memory.readByte m x = Memory.readByte s.mem x)
        ∧ step s = if memAccepts a.toNat = true then .next { s with inputs := rest, mem := m }
            else .fault (.hostStoreRefused a))

/-- `41_acquisition.md` R156: of producer inputs presented together, a write, if there is one, is taken first, then the
event; an error event is taken and the half event with it discarded, whichever of the two is listed first. The form of such
an input is the model's, and so is that it costs a step of its own (log 18). -/
def Obligations.SimultaneousProducerInputsAreOrdered : Prop :=
  ∀ (s : State) (write : Option (BitVec 19)) (codes : List (BitVec 4)) (h e : BitVec 4) (rest : List Input),
    s.inputs = .together write codes :: rest →
    h = 0x1#4 ∨ h = 0x2#4 → e ≠ 0x1#4 → e ≠ 0x2#4 →
    (codes = [h] → step s = .next { s with
      inputs := match write with
        | some w => .pdmWrite w :: .event h :: rest
        | none => .event h :: rest })
    ∧ (codes = [e] ∨ codes = [h, e] ∨ codes = [e, h] → step s = .next { s with
      inputs := match write with
        | some w => .pdmWrite w :: .event e :: rest
        | none => .event e :: rest })

/-- `42_stream.md` R186, `30_encoding.md` R102: the deferred queue runs each request at most once, in order, and changes
nothing of the block; how the model counts them is its own (log 19). -/
def Obligations.QueueRunsRequestsOnceInOrder : Prop :=
  ∀ (s : State) (rest : List Input), s.inputs = .runQueue :: rest →
    (s.queueRun < s.submitted.length → step s = .next { s with inputs := rest, queueRun := s.queueRun + 1 })
    ∧ (s.submitted.length ≤ s.queueRun → step s = .next { s with inputs := rest })
end

