-- ==== Sys2Proof/Laws/Memory.lean ====
section
/-! SUPPORT. Laws of system memory: reading after writing, and that every operation keeps the canonical form. -/

namespace Sys2Proof.Machine

@[simp] theorem Memory.readByte_nil (a : Nat) : Memory.readByte [] a = none := rfl

@[simp] theorem Memory.readByte_writeByte_self (m : Memory) (a : Nat) (b : Byte) :
    Memory.readByte (Memory.writeByte m a b) a = some b := by
  induction m with
  | nil => simp [Memory.writeByte, Memory.readByte]
  | cons c rest ih =>
    obtain ⟨k, v⟩ := c
    unfold Memory.writeByte
    split
    · simp [Memory.readByte]
    · split
      · simp [Memory.readByte]
      · rw [Memory.readByte, if_neg ‹_›, if_neg ‹_›, ih]

theorem Memory.readByte_writeByte_of_ne (m : Memory) {a x : Nat} (b : Byte) (h : x ≠ a) :
    Memory.readByte (Memory.writeByte m a b) x = Memory.readByte m x := by
  induction m with
  | nil => simp [Memory.writeByte, Memory.readByte, h]
  | cons c rest ih =>
    obtain ⟨k, v⟩ := c
    unfold Memory.writeByte
    split
    · rw [Memory.readByte, if_neg h]
      split
      · rw [Memory.readByte, if_neg (by omega), if_pos (by omega)]
      · rfl
    · split
      · subst a
        simp [Memory.readByte, h]
      · simp [Memory.readByte, ih]

theorem Memory.risesFrom_of_le {m : Memory} {lo lo' : Nat} (h : lo' ≤ lo) (hm : Memory.risesFrom lo m = true) :
    Memory.risesFrom lo' m = true := by
  cases m with
  | nil => rfl
  | cons c rest =>
    obtain ⟨k, v⟩ := c
    simp only [Memory.risesFrom, Bool.and_eq_true, decide_eq_true_eq] at hm ⊢
    exact ⟨⟨by omega, hm.1.2⟩, hm.2⟩

theorem Memory.risesFrom_writeByte {m : Memory} {lo a : Nat} (b : Byte) (hm : Memory.risesFrom lo m = true)
    (hlo : lo ≤ a) (ha : a < 2 ^ 32) : Memory.risesFrom lo (Memory.writeByte m a b) = true := by
  induction m generalizing lo with
  | nil => simp [Memory.writeByte, Memory.risesFrom, hlo]; omega
  | cons c rest ih =>
    obtain ⟨k, v⟩ := c
    simp only [Memory.risesFrom, Bool.and_eq_true, decide_eq_true_eq] at hm
    unfold Memory.writeByte
    split
    · simp only [Memory.risesFrom, Bool.and_eq_true, decide_eq_true_eq]
      exact ⟨⟨hlo, ha⟩, ⟨by omega, hm.1.2⟩, hm.2⟩
    · split
      · subst a
        simp only [Memory.risesFrom, Bool.and_eq_true, decide_eq_true_eq]
        exact hm
      · simp only [Memory.risesFrom, Bool.and_eq_true, decide_eq_true_eq]
        exact ⟨hm.1, ih hm.2 (by omega)⟩

/-- A byte write to an address that exists keeps the canonical form. -/
theorem Memory.wf_writeByte {m : Memory} {a : Nat} (b : Byte) (hm : Memory.wf m = true) (ha : a < 2 ^ 32) :
    Memory.wf (Memory.writeByte m a b) = true :=
  Memory.risesFrom_writeByte b hm (Nat.zero_le a) ha

/-- A sample write to addresses that exist keeps the canonical form. -/
theorem Memory.wf_writeSample {m : Memory} {a : Nat} (v : Word16) (hm : Memory.wf m = true) (ha : a + 1 < 2 ^ 32) :
    Memory.wf (Memory.writeSample m a v) = true :=
  Memory.wf_writeByte _ (Memory.wf_writeByte _ hm (by omega)) ha

/-- The memory right after reset is in its canonical form. -/
theorem Memory.wf_reset : Memory.wf State.reset.mem = true := rfl

/-- A sample write leaves every other byte as it was. -/
theorem Memory.readByte_writeSample_of_ne (m : Memory) {a x : Nat} (v : Word16) (h : x ≠ a) (h' : x ≠ a + 1) :
    Memory.readByte (Memory.writeSample m a v) x = Memory.readByte m x := by
  rw [Memory.writeSample, Memory.readByte_writeByte_of_ne _ _ h', Memory.readByte_writeByte_of_ne _ _ h]

theorem Memory.readByte_writeSample_low (m : Memory) (a : Nat) (v : Word16) :
    Memory.readByte (Memory.writeSample m a v) a = some (v.extractLsb' 0 8) := by
  rw [Memory.writeSample, Memory.readByte_writeByte_of_ne _ _ (by omega), Memory.readByte_writeByte_self]

theorem Memory.readByte_writeSample_high (m : Memory) (a : Nat) (v : Word16) :
    Memory.readByte (Memory.writeSample m a v) (a + 1) = some (v.extractLsb' 8 8) := by
  rw [Memory.writeSample, Memory.readByte_writeByte_self]

/-- What the platform's memory accepts is an address that exists. -/
theorem lt_of_memAccepts {a : Nat} (h : memAccepts a = true) : a < 2 ^ 32 := by
  simp only [memAccepts, Bool.and_eq_true, decide_eq_true_eq] at h
  exact h.1

/-- The page every platform has (log 10). -/
theorem memAccepts_ramPage {k : Nat} (h : k < 4096) : memAccepts (Config.ramPage.val * 4096 + k) = true := by
  have hp := Config.ramPage.isLt
  simp only [memAccepts, Bool.and_eq_true, decide_eq_true_eq, Bool.or_eq_true, beq_iff_eq]
  exact ⟨by omega, .inl (by omega)⟩

/-- At least one rate is legal (log 9). -/
theorem rateOk_someRate : rateOk Config.someRate = true := by simp [rateOk]

end Sys2Proof.Machine
end

