-- ==== Sys2Proof/Laws/State.lean ====
section
/-! SUPPORT. One lemma per field per named update of the state, so that no proof unfolds a record update. -/

namespace Sys2Proof.Machine

/-! ### `State.setResult` -/

@[simp] theorem State.setResult_arg0 (s : State) (r : ResultCode) (d : DetailCode) : (s.setResult r d).arg0 = s.arg0 := rfl
@[simp] theorem State.setResult_arg1 (s : State) (r : ResultCode) (d : DetailCode) : (s.setResult r d).arg1 = s.arg1 := rfl
@[simp] theorem State.setResult_arg2 (s : State) (r : ResultCode) (d : DetailCode) : (s.setResult r d).arg2 = s.arg2 := rfl
@[simp] theorem State.setResult_st (s : State) (r : ResultCode) (d : DetailCode) : (s.setResult r d).st = s.st := rfl
@[simp] theorem State.setResult_fault (s : State) (r : ResultCode) (d : DetailCode) : (s.setResult r d).fault = s.fault := rfl
@[simp] theorem State.setResult_result (s : State) (r : ResultCode) (d : DetailCode) : (s.setResult r d).result = r := rfl
@[simp] theorem State.setResult_detail (s : State) (r : ResultCode) (d : DetailCode) : (s.setResult r d).detail = d := rfl
@[simp] theorem State.setResult_faultCause (s : State) (r : ResultCode) (d : DetailCode) : (s.setResult r d).faultCause = s.faultCause := rfl
@[simp] theorem State.setResult_faultHalf (s : State) (r : ResultCode) (d : DetailCode) : (s.setResult r d).faultHalf = s.faultHalf := rfl
@[simp] theorem State.setResult_armed (s : State) (r : ResultCode) (d : DetailCode) : (s.setResult r d).armed = s.armed := rfl
@[simp] theorem State.setResult_pend0 (s : State) (r : ResultCode) (d : DetailCode) : (s.setResult r d).pend0 = s.pend0 := rfl
@[simp] theorem State.setResult_pend1 (s : State) (r : ResultCode) (d : DetailCode) : (s.setResult r d).pend1 = s.pend1 := rfl
@[simp] theorem State.setResult_own0 (s : State) (r : ResultCode) (d : DetailCode) : (s.setResult r d).own0 = s.own0 := rfl
@[simp] theorem State.setResult_own1 (s : State) (r : ResultCode) (d : DetailCode) : (s.setResult r d).own1 = s.own1 := rfl
@[simp] theorem State.setResult_nextEvt (s : State) (r : ResultCode) (d : DetailCode) : (s.setResult r d).nextEvt = s.nextEvt := rfl
@[simp] theorem State.setResult_nextProc (s : State) (r : ResultCode) (d : DetailCode) : (s.setResult r d).nextProc = s.nextProc := rfl
@[simp] theorem State.setResult_cursor (s : State) (r : ResultCode) (d : DetailCode) : (s.setResult r d).cursor = s.cursor := rfl
@[simp] theorem State.setResult_destAddr (s : State) (r : ResultCode) (d : DetailCode) : (s.setResult r d).destAddr = s.destAddr := rfl
@[simp] theorem State.setResult_destLen (s : State) (r : ResultCode) (d : DetailCode) : (s.setResult r d).destLen = s.destLen := rfl
@[simp] theorem State.setResult_cb (s : State) (r : ResultCode) (d : DetailCode) : (s.setResult r d).cb = s.cb := rfl
@[simp] theorem State.setResult_rate (s : State) (r : ResultCode) (d : DetailCode) : (s.setResult r d).rate = s.rate := rfl
@[simp] theorem State.setResult_lastSinc (s : State) (r : ResultCode) (d : DetailCode) : (s.setResult r d).lastSinc = s.lastSinc := rfl
@[simp] theorem State.setResult_lastPcm (s : State) (r : ResultCode) (d : DetailCode) : (s.setResult r d).lastPcm = s.lastPcm := rfl
@[simp] theorem State.setResult_buf (s : State) (r : ResultCode) (d : DetailCode) : (s.setResult r d).buf = s.buf := rfl
@[simp] theorem State.setResult_written (s : State) (r : ResultCode) (d : DetailCode) : (s.setResult r d).written = s.written := rfl
@[simp] theorem State.setResult_delay (s : State) (r : ResultCode) (d : DetailCode) : (s.setResult r d).delay = s.delay := rfl
@[simp] theorem State.setResult_submitted (s : State) (r : ResultCode) (d : DetailCode) : (s.setResult r d).submitted = s.submitted := rfl
@[simp] theorem State.setResult_mem (s : State) (r : ResultCode) (d : DetailCode) : (s.setResult r d).mem = s.mem := rfl
@[simp] theorem State.setResult_rst (s : State) (r : ResultCode) (d : DetailCode) : (s.setResult r d).rst = s.rst := rfl
@[simp] theorem State.setResult_inputs (s : State) (r : ResultCode) (d : DetailCode) : (s.setResult r d).inputs = s.inputs := rfl
@[simp] theorem State.setResult_binding (s : State) (r : ResultCode) (d : DetailCode) : (s.setResult r d).binding = s.binding := rfl
@[simp] theorem State.setResult_draws (s : State) (r : ResultCode) (d : DetailCode) : (s.setResult r d).draws = s.draws := rfl
@[simp] theorem State.setResult_ret (s : State) (r : ResultCode) (d : DetailCode) : (s.setResult r d).ret = s.ret := rfl
@[simp] theorem State.setResult_busData (s : State) (r : ResultCode) (d : DetailCode) : (s.setResult r d).busData = s.busData := rfl
@[simp] theorem State.setResult_queueRun (s : State) (r : ResultCode) (d : DetailCode) : (s.setResult r d).queueRun = s.queueRun := rfl

/-! ### `State.submit` -/

@[simp] theorem State.submit_arg0 (s : State) (cb arg : Word) : (s.submit cb arg).arg0 = s.arg0 := rfl
@[simp] theorem State.submit_arg1 (s : State) (cb arg : Word) : (s.submit cb arg).arg1 = s.arg1 := rfl
@[simp] theorem State.submit_arg2 (s : State) (cb arg : Word) : (s.submit cb arg).arg2 = s.arg2 := rfl
@[simp] theorem State.submit_st (s : State) (cb arg : Word) : (s.submit cb arg).st = s.st := rfl
@[simp] theorem State.submit_fault (s : State) (cb arg : Word) : (s.submit cb arg).fault = s.fault := rfl
@[simp] theorem State.submit_result (s : State) (cb arg : Word) : (s.submit cb arg).result = s.result := rfl
@[simp] theorem State.submit_detail (s : State) (cb arg : Word) : (s.submit cb arg).detail = s.detail := rfl
@[simp] theorem State.submit_faultCause (s : State) (cb arg : Word) : (s.submit cb arg).faultCause = s.faultCause := rfl
@[simp] theorem State.submit_faultHalf (s : State) (cb arg : Word) : (s.submit cb arg).faultHalf = s.faultHalf := rfl
@[simp] theorem State.submit_armed (s : State) (cb arg : Word) : (s.submit cb arg).armed = s.armed := rfl
@[simp] theorem State.submit_pend0 (s : State) (cb arg : Word) : (s.submit cb arg).pend0 = s.pend0 := rfl
@[simp] theorem State.submit_pend1 (s : State) (cb arg : Word) : (s.submit cb arg).pend1 = s.pend1 := rfl
@[simp] theorem State.submit_own0 (s : State) (cb arg : Word) : (s.submit cb arg).own0 = s.own0 := rfl
@[simp] theorem State.submit_own1 (s : State) (cb arg : Word) : (s.submit cb arg).own1 = s.own1 := rfl
@[simp] theorem State.submit_nextEvt (s : State) (cb arg : Word) : (s.submit cb arg).nextEvt = s.nextEvt := rfl
@[simp] theorem State.submit_nextProc (s : State) (cb arg : Word) : (s.submit cb arg).nextProc = s.nextProc := rfl
@[simp] theorem State.submit_cursor (s : State) (cb arg : Word) : (s.submit cb arg).cursor = s.cursor := rfl
@[simp] theorem State.submit_destAddr (s : State) (cb arg : Word) : (s.submit cb arg).destAddr = s.destAddr := rfl
@[simp] theorem State.submit_destLen (s : State) (cb arg : Word) : (s.submit cb arg).destLen = s.destLen := rfl
@[simp] theorem State.submit_cb (s : State) (cb arg : Word) : (s.submit cb arg).cb = s.cb := rfl
@[simp] theorem State.submit_rate (s : State) (cb arg : Word) : (s.submit cb arg).rate = s.rate := rfl
@[simp] theorem State.submit_lastSinc (s : State) (cb arg : Word) : (s.submit cb arg).lastSinc = s.lastSinc := rfl
@[simp] theorem State.submit_lastPcm (s : State) (cb arg : Word) : (s.submit cb arg).lastPcm = s.lastPcm := rfl
@[simp] theorem State.submit_buf (s : State) (cb arg : Word) : (s.submit cb arg).buf = s.buf := rfl
@[simp] theorem State.submit_written (s : State) (cb arg : Word) : (s.submit cb arg).written = s.written := rfl
@[simp] theorem State.submit_delay (s : State) (cb arg : Word) : (s.submit cb arg).delay = s.delay := rfl
@[simp] theorem State.submit_submitted (s : State) (cb arg : Word) : (s.submit cb arg).submitted = s.submitted ++ [⟨cb, arg⟩] := rfl
@[simp] theorem State.submit_mem (s : State) (cb arg : Word) : (s.submit cb arg).mem = s.mem := rfl
@[simp] theorem State.submit_rst (s : State) (cb arg : Word) : (s.submit cb arg).rst = s.rst := rfl
@[simp] theorem State.submit_inputs (s : State) (cb arg : Word) : (s.submit cb arg).inputs = s.inputs := rfl
@[simp] theorem State.submit_binding (s : State) (cb arg : Word) : (s.submit cb arg).binding = s.binding := rfl
@[simp] theorem State.submit_draws (s : State) (cb arg : Word) : (s.submit cb arg).draws = s.draws := rfl
@[simp] theorem State.submit_ret (s : State) (cb arg : Word) : (s.submit cb arg).ret = s.ret := rfl
@[simp] theorem State.submit_busData (s : State) (cb arg : Word) : (s.submit cb arg).busData = s.busData := rfl
@[simp] theorem State.submit_queueRun (s : State) (cb arg : Word) : (s.submit cb arg).queueRun = s.queueRun := rfl

/-! ### `State.setRet` -/

@[simp] theorem State.setRet_arg0 (s : State) (v : Word) : (s.setRet v).arg0 = s.arg0 := rfl
@[simp] theorem State.setRet_arg1 (s : State) (v : Word) : (s.setRet v).arg1 = s.arg1 := rfl
@[simp] theorem State.setRet_arg2 (s : State) (v : Word) : (s.setRet v).arg2 = s.arg2 := rfl
@[simp] theorem State.setRet_st (s : State) (v : Word) : (s.setRet v).st = s.st := rfl
@[simp] theorem State.setRet_fault (s : State) (v : Word) : (s.setRet v).fault = s.fault := rfl
@[simp] theorem State.setRet_result (s : State) (v : Word) : (s.setRet v).result = s.result := rfl
@[simp] theorem State.setRet_detail (s : State) (v : Word) : (s.setRet v).detail = s.detail := rfl
@[simp] theorem State.setRet_faultCause (s : State) (v : Word) : (s.setRet v).faultCause = s.faultCause := rfl
@[simp] theorem State.setRet_faultHalf (s : State) (v : Word) : (s.setRet v).faultHalf = s.faultHalf := rfl
@[simp] theorem State.setRet_armed (s : State) (v : Word) : (s.setRet v).armed = s.armed := rfl
@[simp] theorem State.setRet_pend0 (s : State) (v : Word) : (s.setRet v).pend0 = s.pend0 := rfl
@[simp] theorem State.setRet_pend1 (s : State) (v : Word) : (s.setRet v).pend1 = s.pend1 := rfl
@[simp] theorem State.setRet_own0 (s : State) (v : Word) : (s.setRet v).own0 = s.own0 := rfl
@[simp] theorem State.setRet_own1 (s : State) (v : Word) : (s.setRet v).own1 = s.own1 := rfl
@[simp] theorem State.setRet_nextEvt (s : State) (v : Word) : (s.setRet v).nextEvt = s.nextEvt := rfl
@[simp] theorem State.setRet_nextProc (s : State) (v : Word) : (s.setRet v).nextProc = s.nextProc := rfl
@[simp] theorem State.setRet_cursor (s : State) (v : Word) : (s.setRet v).cursor = s.cursor := rfl
@[simp] theorem State.setRet_destAddr (s : State) (v : Word) : (s.setRet v).destAddr = s.destAddr := rfl
@[simp] theorem State.setRet_destLen (s : State) (v : Word) : (s.setRet v).destLen = s.destLen := rfl
@[simp] theorem State.setRet_cb (s : State) (v : Word) : (s.setRet v).cb = s.cb := rfl
@[simp] theorem State.setRet_rate (s : State) (v : Word) : (s.setRet v).rate = s.rate := rfl
@[simp] theorem State.setRet_lastSinc (s : State) (v : Word) : (s.setRet v).lastSinc = s.lastSinc := rfl
@[simp] theorem State.setRet_lastPcm (s : State) (v : Word) : (s.setRet v).lastPcm = s.lastPcm := rfl
@[simp] theorem State.setRet_buf (s : State) (v : Word) : (s.setRet v).buf = s.buf := rfl
@[simp] theorem State.setRet_written (s : State) (v : Word) : (s.setRet v).written = s.written := rfl
@[simp] theorem State.setRet_delay (s : State) (v : Word) : (s.setRet v).delay = s.delay := rfl
@[simp] theorem State.setRet_submitted (s : State) (v : Word) : (s.setRet v).submitted = s.submitted := rfl
@[simp] theorem State.setRet_mem (s : State) (v : Word) : (s.setRet v).mem = s.mem := rfl
@[simp] theorem State.setRet_rst (s : State) (v : Word) : (s.setRet v).rst = s.rst := rfl
@[simp] theorem State.setRet_inputs (s : State) (v : Word) : (s.setRet v).inputs = s.inputs := rfl
@[simp] theorem State.setRet_binding (s : State) (v : Word) : (s.setRet v).binding = s.binding := rfl
@[simp] theorem State.setRet_draws (s : State) (v : Word) : (s.setRet v).draws = s.draws := rfl
@[simp] theorem State.setRet_ret (s : State) (v : Word) : (s.setRet v).ret = v := rfl
@[simp] theorem State.setRet_busData (s : State) (v : Word) : (s.setRet v).busData = s.busData := rfl
@[simp] theorem State.setRet_queueRun (s : State) (v : Word) : (s.setRet v).queueRun = s.queueRun := rfl

/-! ### `State.setBus` -/

@[simp] theorem State.setBus_arg0 (s : State) (v : Word) : (s.setBus v).arg0 = s.arg0 := rfl
@[simp] theorem State.setBus_arg1 (s : State) (v : Word) : (s.setBus v).arg1 = s.arg1 := rfl
@[simp] theorem State.setBus_arg2 (s : State) (v : Word) : (s.setBus v).arg2 = s.arg2 := rfl
@[simp] theorem State.setBus_st (s : State) (v : Word) : (s.setBus v).st = s.st := rfl
@[simp] theorem State.setBus_fault (s : State) (v : Word) : (s.setBus v).fault = s.fault := rfl
@[simp] theorem State.setBus_result (s : State) (v : Word) : (s.setBus v).result = s.result := rfl
@[simp] theorem State.setBus_detail (s : State) (v : Word) : (s.setBus v).detail = s.detail := rfl
@[simp] theorem State.setBus_faultCause (s : State) (v : Word) : (s.setBus v).faultCause = s.faultCause := rfl
@[simp] theorem State.setBus_faultHalf (s : State) (v : Word) : (s.setBus v).faultHalf = s.faultHalf := rfl
@[simp] theorem State.setBus_armed (s : State) (v : Word) : (s.setBus v).armed = s.armed := rfl
@[simp] theorem State.setBus_pend0 (s : State) (v : Word) : (s.setBus v).pend0 = s.pend0 := rfl
@[simp] theorem State.setBus_pend1 (s : State) (v : Word) : (s.setBus v).pend1 = s.pend1 := rfl
@[simp] theorem State.setBus_own0 (s : State) (v : Word) : (s.setBus v).own0 = s.own0 := rfl
@[simp] theorem State.setBus_own1 (s : State) (v : Word) : (s.setBus v).own1 = s.own1 := rfl
@[simp] theorem State.setBus_nextEvt (s : State) (v : Word) : (s.setBus v).nextEvt = s.nextEvt := rfl
@[simp] theorem State.setBus_nextProc (s : State) (v : Word) : (s.setBus v).nextProc = s.nextProc := rfl
@[simp] theorem State.setBus_cursor (s : State) (v : Word) : (s.setBus v).cursor = s.cursor := rfl
@[simp] theorem State.setBus_destAddr (s : State) (v : Word) : (s.setBus v).destAddr = s.destAddr := rfl
@[simp] theorem State.setBus_destLen (s : State) (v : Word) : (s.setBus v).destLen = s.destLen := rfl
@[simp] theorem State.setBus_cb (s : State) (v : Word) : (s.setBus v).cb = s.cb := rfl
@[simp] theorem State.setBus_rate (s : State) (v : Word) : (s.setBus v).rate = s.rate := rfl
@[simp] theorem State.setBus_lastSinc (s : State) (v : Word) : (s.setBus v).lastSinc = s.lastSinc := rfl
@[simp] theorem State.setBus_lastPcm (s : State) (v : Word) : (s.setBus v).lastPcm = s.lastPcm := rfl
@[simp] theorem State.setBus_buf (s : State) (v : Word) : (s.setBus v).buf = s.buf := rfl
@[simp] theorem State.setBus_written (s : State) (v : Word) : (s.setBus v).written = s.written := rfl
@[simp] theorem State.setBus_delay (s : State) (v : Word) : (s.setBus v).delay = s.delay := rfl
@[simp] theorem State.setBus_submitted (s : State) (v : Word) : (s.setBus v).submitted = s.submitted := rfl
@[simp] theorem State.setBus_mem (s : State) (v : Word) : (s.setBus v).mem = s.mem := rfl
@[simp] theorem State.setBus_rst (s : State) (v : Word) : (s.setBus v).rst = s.rst := rfl
@[simp] theorem State.setBus_inputs (s : State) (v : Word) : (s.setBus v).inputs = s.inputs := rfl
@[simp] theorem State.setBus_binding (s : State) (v : Word) : (s.setBus v).binding = s.binding := rfl
@[simp] theorem State.setBus_draws (s : State) (v : Word) : (s.setBus v).draws = s.draws := rfl
@[simp] theorem State.setBus_ret (s : State) (v : Word) : (s.setBus v).ret = s.ret := rfl
@[simp] theorem State.setBus_busData (s : State) (v : Word) : (s.setBus v).busData = v := rfl
@[simp] theorem State.setBus_queueRun (s : State) (v : Word) : (s.setBus v).queueRun = s.queueRun := rfl

/-! ### `State.setInputs` -/

@[simp] theorem State.setInputs_arg0 (s : State) (l : List Input) : (s.setInputs l).arg0 = s.arg0 := rfl
@[simp] theorem State.setInputs_arg1 (s : State) (l : List Input) : (s.setInputs l).arg1 = s.arg1 := rfl
@[simp] theorem State.setInputs_arg2 (s : State) (l : List Input) : (s.setInputs l).arg2 = s.arg2 := rfl
@[simp] theorem State.setInputs_st (s : State) (l : List Input) : (s.setInputs l).st = s.st := rfl
@[simp] theorem State.setInputs_fault (s : State) (l : List Input) : (s.setInputs l).fault = s.fault := rfl
@[simp] theorem State.setInputs_result (s : State) (l : List Input) : (s.setInputs l).result = s.result := rfl
@[simp] theorem State.setInputs_detail (s : State) (l : List Input) : (s.setInputs l).detail = s.detail := rfl
@[simp] theorem State.setInputs_faultCause (s : State) (l : List Input) : (s.setInputs l).faultCause = s.faultCause := rfl
@[simp] theorem State.setInputs_faultHalf (s : State) (l : List Input) : (s.setInputs l).faultHalf = s.faultHalf := rfl
@[simp] theorem State.setInputs_armed (s : State) (l : List Input) : (s.setInputs l).armed = s.armed := rfl
@[simp] theorem State.setInputs_pend0 (s : State) (l : List Input) : (s.setInputs l).pend0 = s.pend0 := rfl
@[simp] theorem State.setInputs_pend1 (s : State) (l : List Input) : (s.setInputs l).pend1 = s.pend1 := rfl
@[simp] theorem State.setInputs_own0 (s : State) (l : List Input) : (s.setInputs l).own0 = s.own0 := rfl
@[simp] theorem State.setInputs_own1 (s : State) (l : List Input) : (s.setInputs l).own1 = s.own1 := rfl
@[simp] theorem State.setInputs_nextEvt (s : State) (l : List Input) : (s.setInputs l).nextEvt = s.nextEvt := rfl
@[simp] theorem State.setInputs_nextProc (s : State) (l : List Input) : (s.setInputs l).nextProc = s.nextProc := rfl
@[simp] theorem State.setInputs_cursor (s : State) (l : List Input) : (s.setInputs l).cursor = s.cursor := rfl
@[simp] theorem State.setInputs_destAddr (s : State) (l : List Input) : (s.setInputs l).destAddr = s.destAddr := rfl
@[simp] theorem State.setInputs_destLen (s : State) (l : List Input) : (s.setInputs l).destLen = s.destLen := rfl
@[simp] theorem State.setInputs_cb (s : State) (l : List Input) : (s.setInputs l).cb = s.cb := rfl
@[simp] theorem State.setInputs_rate (s : State) (l : List Input) : (s.setInputs l).rate = s.rate := rfl
@[simp] theorem State.setInputs_lastSinc (s : State) (l : List Input) : (s.setInputs l).lastSinc = s.lastSinc := rfl
@[simp] theorem State.setInputs_lastPcm (s : State) (l : List Input) : (s.setInputs l).lastPcm = s.lastPcm := rfl
@[simp] theorem State.setInputs_buf (s : State) (l : List Input) : (s.setInputs l).buf = s.buf := rfl
@[simp] theorem State.setInputs_written (s : State) (l : List Input) : (s.setInputs l).written = s.written := rfl
@[simp] theorem State.setInputs_delay (s : State) (l : List Input) : (s.setInputs l).delay = s.delay := rfl
@[simp] theorem State.setInputs_submitted (s : State) (l : List Input) : (s.setInputs l).submitted = s.submitted := rfl
@[simp] theorem State.setInputs_mem (s : State) (l : List Input) : (s.setInputs l).mem = s.mem := rfl
@[simp] theorem State.setInputs_rst (s : State) (l : List Input) : (s.setInputs l).rst = s.rst := rfl
@[simp] theorem State.setInputs_inputs (s : State) (l : List Input) : (s.setInputs l).inputs = l := rfl
@[simp] theorem State.setInputs_binding (s : State) (l : List Input) : (s.setInputs l).binding = s.binding := rfl
@[simp] theorem State.setInputs_draws (s : State) (l : List Input) : (s.setInputs l).draws = s.draws := rfl
@[simp] theorem State.setInputs_ret (s : State) (l : List Input) : (s.setInputs l).ret = s.ret := rfl
@[simp] theorem State.setInputs_busData (s : State) (l : List Input) : (s.setInputs l).busData = s.busData := rfl
@[simp] theorem State.setInputs_queueRun (s : State) (l : List Input) : (s.setInputs l).queueRun = s.queueRun := rfl

/-! ### `State.putWord` -/

@[simp] theorem State.putWord_arg0 (s : State) (idx : BitVec 3) (data : Word16) : (s.putWord idx data).arg0 = s.arg0 := rfl
@[simp] theorem State.putWord_arg1 (s : State) (idx : BitVec 3) (data : Word16) : (s.putWord idx data).arg1 = s.arg1 := rfl
@[simp] theorem State.putWord_arg2 (s : State) (idx : BitVec 3) (data : Word16) : (s.putWord idx data).arg2 = s.arg2 := rfl
@[simp] theorem State.putWord_st (s : State) (idx : BitVec 3) (data : Word16) : (s.putWord idx data).st = s.st := rfl
@[simp] theorem State.putWord_fault (s : State) (idx : BitVec 3) (data : Word16) : (s.putWord idx data).fault = s.fault := rfl
@[simp] theorem State.putWord_result (s : State) (idx : BitVec 3) (data : Word16) : (s.putWord idx data).result = s.result := rfl
@[simp] theorem State.putWord_detail (s : State) (idx : BitVec 3) (data : Word16) : (s.putWord idx data).detail = s.detail := rfl
@[simp] theorem State.putWord_faultCause (s : State) (idx : BitVec 3) (data : Word16) : (s.putWord idx data).faultCause = s.faultCause := rfl
@[simp] theorem State.putWord_faultHalf (s : State) (idx : BitVec 3) (data : Word16) : (s.putWord idx data).faultHalf = s.faultHalf := rfl
@[simp] theorem State.putWord_armed (s : State) (idx : BitVec 3) (data : Word16) : (s.putWord idx data).armed = s.armed := rfl
@[simp] theorem State.putWord_pend0 (s : State) (idx : BitVec 3) (data : Word16) : (s.putWord idx data).pend0 = s.pend0 := rfl
@[simp] theorem State.putWord_pend1 (s : State) (idx : BitVec 3) (data : Word16) : (s.putWord idx data).pend1 = s.pend1 := rfl
@[simp] theorem State.putWord_own0 (s : State) (idx : BitVec 3) (data : Word16) : (s.putWord idx data).own0 = s.own0 := rfl
@[simp] theorem State.putWord_own1 (s : State) (idx : BitVec 3) (data : Word16) : (s.putWord idx data).own1 = s.own1 := rfl
@[simp] theorem State.putWord_nextEvt (s : State) (idx : BitVec 3) (data : Word16) : (s.putWord idx data).nextEvt = s.nextEvt := rfl
@[simp] theorem State.putWord_nextProc (s : State) (idx : BitVec 3) (data : Word16) : (s.putWord idx data).nextProc = s.nextProc := rfl
@[simp] theorem State.putWord_cursor (s : State) (idx : BitVec 3) (data : Word16) : (s.putWord idx data).cursor = s.cursor := rfl
@[simp] theorem State.putWord_destAddr (s : State) (idx : BitVec 3) (data : Word16) : (s.putWord idx data).destAddr = s.destAddr := rfl
@[simp] theorem State.putWord_destLen (s : State) (idx : BitVec 3) (data : Word16) : (s.putWord idx data).destLen = s.destLen := rfl
@[simp] theorem State.putWord_cb (s : State) (idx : BitVec 3) (data : Word16) : (s.putWord idx data).cb = s.cb := rfl
@[simp] theorem State.putWord_rate (s : State) (idx : BitVec 3) (data : Word16) : (s.putWord idx data).rate = s.rate := rfl
@[simp] theorem State.putWord_lastSinc (s : State) (idx : BitVec 3) (data : Word16) : (s.putWord idx data).lastSinc = s.lastSinc := rfl
@[simp] theorem State.putWord_lastPcm (s : State) (idx : BitVec 3) (data : Word16) : (s.putWord idx data).lastPcm = s.lastPcm := rfl
@[simp] theorem State.putWord_buf (s : State) (idx : BitVec 3) (data : Word16) : (s.putWord idx data).buf = s.buf.set idx.toNat data idx.isLt := rfl
@[simp] theorem State.putWord_written (s : State) (idx : BitVec 3) (data : Word16) : (s.putWord idx data).written = s.written.set idx.toNat true idx.isLt := rfl
@[simp] theorem State.putWord_delay (s : State) (idx : BitVec 3) (data : Word16) : (s.putWord idx data).delay = s.delay := rfl
@[simp] theorem State.putWord_submitted (s : State) (idx : BitVec 3) (data : Word16) : (s.putWord idx data).submitted = s.submitted := rfl
@[simp] theorem State.putWord_mem (s : State) (idx : BitVec 3) (data : Word16) : (s.putWord idx data).mem = s.mem := rfl
@[simp] theorem State.putWord_rst (s : State) (idx : BitVec 3) (data : Word16) : (s.putWord idx data).rst = s.rst := rfl
@[simp] theorem State.putWord_inputs (s : State) (idx : BitVec 3) (data : Word16) : (s.putWord idx data).inputs = s.inputs := rfl
@[simp] theorem State.putWord_binding (s : State) (idx : BitVec 3) (data : Word16) : (s.putWord idx data).binding = s.binding := rfl
@[simp] theorem State.putWord_draws (s : State) (idx : BitVec 3) (data : Word16) : (s.putWord idx data).draws = s.draws := rfl
@[simp] theorem State.putWord_ret (s : State) (idx : BitVec 3) (data : Word16) : (s.putWord idx data).ret = s.ret := rfl
@[simp] theorem State.putWord_busData (s : State) (idx : BitVec 3) (data : Word16) : (s.putWord idx data).busData = s.busData := rfl
@[simp] theorem State.putWord_queueRun (s : State) (idx : BitVec 3) (data : Word16) : (s.putWord idx data).queueRun = s.queueRun := rfl

/-! ### `State.setLast` -/

@[simp] theorem State.setLast_arg0 (s : State) (v : Word) (p : Word16) : (s.setLast v p).arg0 = s.arg0 := rfl
@[simp] theorem State.setLast_arg1 (s : State) (v : Word) (p : Word16) : (s.setLast v p).arg1 = s.arg1 := rfl
@[simp] theorem State.setLast_arg2 (s : State) (v : Word) (p : Word16) : (s.setLast v p).arg2 = s.arg2 := rfl
@[simp] theorem State.setLast_st (s : State) (v : Word) (p : Word16) : (s.setLast v p).st = s.st := rfl
@[simp] theorem State.setLast_fault (s : State) (v : Word) (p : Word16) : (s.setLast v p).fault = s.fault := rfl
@[simp] theorem State.setLast_result (s : State) (v : Word) (p : Word16) : (s.setLast v p).result = s.result := rfl
@[simp] theorem State.setLast_detail (s : State) (v : Word) (p : Word16) : (s.setLast v p).detail = s.detail := rfl
@[simp] theorem State.setLast_faultCause (s : State) (v : Word) (p : Word16) : (s.setLast v p).faultCause = s.faultCause := rfl
@[simp] theorem State.setLast_faultHalf (s : State) (v : Word) (p : Word16) : (s.setLast v p).faultHalf = s.faultHalf := rfl
@[simp] theorem State.setLast_armed (s : State) (v : Word) (p : Word16) : (s.setLast v p).armed = s.armed := rfl
@[simp] theorem State.setLast_pend0 (s : State) (v : Word) (p : Word16) : (s.setLast v p).pend0 = s.pend0 := rfl
@[simp] theorem State.setLast_pend1 (s : State) (v : Word) (p : Word16) : (s.setLast v p).pend1 = s.pend1 := rfl
@[simp] theorem State.setLast_own0 (s : State) (v : Word) (p : Word16) : (s.setLast v p).own0 = s.own0 := rfl
@[simp] theorem State.setLast_own1 (s : State) (v : Word) (p : Word16) : (s.setLast v p).own1 = s.own1 := rfl
@[simp] theorem State.setLast_nextEvt (s : State) (v : Word) (p : Word16) : (s.setLast v p).nextEvt = s.nextEvt := rfl
@[simp] theorem State.setLast_nextProc (s : State) (v : Word) (p : Word16) : (s.setLast v p).nextProc = s.nextProc := rfl
@[simp] theorem State.setLast_cursor (s : State) (v : Word) (p : Word16) : (s.setLast v p).cursor = s.cursor := rfl
@[simp] theorem State.setLast_destAddr (s : State) (v : Word) (p : Word16) : (s.setLast v p).destAddr = s.destAddr := rfl
@[simp] theorem State.setLast_destLen (s : State) (v : Word) (p : Word16) : (s.setLast v p).destLen = s.destLen := rfl
@[simp] theorem State.setLast_cb (s : State) (v : Word) (p : Word16) : (s.setLast v p).cb = s.cb := rfl
@[simp] theorem State.setLast_rate (s : State) (v : Word) (p : Word16) : (s.setLast v p).rate = s.rate := rfl
@[simp] theorem State.setLast_lastSinc (s : State) (v : Word) (p : Word16) : (s.setLast v p).lastSinc = v := rfl
@[simp] theorem State.setLast_lastPcm (s : State) (v : Word) (p : Word16) : (s.setLast v p).lastPcm = p := rfl
@[simp] theorem State.setLast_buf (s : State) (v : Word) (p : Word16) : (s.setLast v p).buf = s.buf := rfl
@[simp] theorem State.setLast_written (s : State) (v : Word) (p : Word16) : (s.setLast v p).written = s.written := rfl
@[simp] theorem State.setLast_delay (s : State) (v : Word) (p : Word16) : (s.setLast v p).delay = s.delay := rfl
@[simp] theorem State.setLast_submitted (s : State) (v : Word) (p : Word16) : (s.setLast v p).submitted = s.submitted := rfl
@[simp] theorem State.setLast_mem (s : State) (v : Word) (p : Word16) : (s.setLast v p).mem = s.mem := rfl
@[simp] theorem State.setLast_rst (s : State) (v : Word) (p : Word16) : (s.setLast v p).rst = s.rst := rfl
@[simp] theorem State.setLast_inputs (s : State) (v : Word) (p : Word16) : (s.setLast v p).inputs = s.inputs := rfl
@[simp] theorem State.setLast_binding (s : State) (v : Word) (p : Word16) : (s.setLast v p).binding = s.binding := rfl
@[simp] theorem State.setLast_draws (s : State) (v : Word) (p : Word16) : (s.setLast v p).draws = s.draws := rfl
@[simp] theorem State.setLast_ret (s : State) (v : Word) (p : Word16) : (s.setLast v p).ret = s.ret := rfl
@[simp] theorem State.setLast_busData (s : State) (v : Word) (p : Word16) : (s.setLast v p).busData = s.busData := rfl
@[simp] theorem State.setLast_queueRun (s : State) (v : Word) (p : Word16) : (s.setLast v p).queueRun = s.queueRun := rfl

/-! ### `State.firPush` -/

@[simp] theorem State.firPush_arg0 (s : State) (x : Word) : (s.firPush x).arg0 = s.arg0 := rfl
@[simp] theorem State.firPush_arg1 (s : State) (x : Word) : (s.firPush x).arg1 = s.arg1 := rfl
@[simp] theorem State.firPush_arg2 (s : State) (x : Word) : (s.firPush x).arg2 = s.arg2 := rfl
@[simp] theorem State.firPush_st (s : State) (x : Word) : (s.firPush x).st = s.st := rfl
@[simp] theorem State.firPush_fault (s : State) (x : Word) : (s.firPush x).fault = s.fault := rfl
@[simp] theorem State.firPush_result (s : State) (x : Word) : (s.firPush x).result = s.result := rfl
@[simp] theorem State.firPush_detail (s : State) (x : Word) : (s.firPush x).detail = s.detail := rfl
@[simp] theorem State.firPush_faultCause (s : State) (x : Word) : (s.firPush x).faultCause = s.faultCause := rfl
@[simp] theorem State.firPush_faultHalf (s : State) (x : Word) : (s.firPush x).faultHalf = s.faultHalf := rfl
@[simp] theorem State.firPush_armed (s : State) (x : Word) : (s.firPush x).armed = s.armed := rfl
@[simp] theorem State.firPush_pend0 (s : State) (x : Word) : (s.firPush x).pend0 = s.pend0 := rfl
@[simp] theorem State.firPush_pend1 (s : State) (x : Word) : (s.firPush x).pend1 = s.pend1 := rfl
@[simp] theorem State.firPush_own0 (s : State) (x : Word) : (s.firPush x).own0 = s.own0 := rfl
@[simp] theorem State.firPush_own1 (s : State) (x : Word) : (s.firPush x).own1 = s.own1 := rfl
@[simp] theorem State.firPush_nextEvt (s : State) (x : Word) : (s.firPush x).nextEvt = s.nextEvt := rfl
@[simp] theorem State.firPush_nextProc (s : State) (x : Word) : (s.firPush x).nextProc = s.nextProc := rfl
@[simp] theorem State.firPush_cursor (s : State) (x : Word) : (s.firPush x).cursor = s.cursor := rfl
@[simp] theorem State.firPush_destAddr (s : State) (x : Word) : (s.firPush x).destAddr = s.destAddr := rfl
@[simp] theorem State.firPush_destLen (s : State) (x : Word) : (s.firPush x).destLen = s.destLen := rfl
@[simp] theorem State.firPush_cb (s : State) (x : Word) : (s.firPush x).cb = s.cb := rfl
@[simp] theorem State.firPush_rate (s : State) (x : Word) : (s.firPush x).rate = s.rate := rfl
@[simp] theorem State.firPush_lastSinc (s : State) (x : Word) : (s.firPush x).lastSinc = s.lastSinc := rfl
@[simp] theorem State.firPush_lastPcm (s : State) (x : Word) : (s.firPush x).lastPcm = s.lastPcm := rfl
@[simp] theorem State.firPush_buf (s : State) (x : Word) : (s.firPush x).buf = s.buf := rfl
@[simp] theorem State.firPush_written (s : State) (x : Word) : (s.firPush x).written = s.written := rfl
@[simp] theorem State.firPush_delay (s : State) (x : Word) : (s.firPush x).delay = s.delayAfter x := rfl
@[simp] theorem State.firPush_submitted (s : State) (x : Word) : (s.firPush x).submitted = s.submitted := rfl
@[simp] theorem State.firPush_mem (s : State) (x : Word) : (s.firPush x).mem = s.mem := rfl
@[simp] theorem State.firPush_rst (s : State) (x : Word) : (s.firPush x).rst = s.rst := rfl
@[simp] theorem State.firPush_inputs (s : State) (x : Word) : (s.firPush x).inputs = s.inputs := rfl
@[simp] theorem State.firPush_binding (s : State) (x : Word) : (s.firPush x).binding = s.binding := rfl
@[simp] theorem State.firPush_draws (s : State) (x : Word) : (s.firPush x).draws = s.draws := rfl
@[simp] theorem State.firPush_ret (s : State) (x : Word) : (s.firPush x).ret = s.ret := rfl
@[simp] theorem State.firPush_busData (s : State) (x : Word) : (s.firPush x).busData = s.busData := rfl
@[simp] theorem State.firPush_queueRun (s : State) (x : Word) : (s.firPush x).queueRun = s.queueRun := rfl

/-! ### `State.setHalfWords` -/

@[simp] theorem State.setHalfWords_arg0 (s : State) (h : Half) (l : List Word16) : (s.setHalfWords h l).arg0 = s.arg0 := by cases h <;> rfl
@[simp] theorem State.setHalfWords_arg1 (s : State) (h : Half) (l : List Word16) : (s.setHalfWords h l).arg1 = s.arg1 := by cases h <;> rfl
@[simp] theorem State.setHalfWords_arg2 (s : State) (h : Half) (l : List Word16) : (s.setHalfWords h l).arg2 = s.arg2 := by cases h <;> rfl
@[simp] theorem State.setHalfWords_st (s : State) (h : Half) (l : List Word16) : (s.setHalfWords h l).st = s.st := by cases h <;> rfl
@[simp] theorem State.setHalfWords_fault (s : State) (h : Half) (l : List Word16) : (s.setHalfWords h l).fault = s.fault := by cases h <;> rfl
@[simp] theorem State.setHalfWords_result (s : State) (h : Half) (l : List Word16) : (s.setHalfWords h l).result = s.result := by cases h <;> rfl
@[simp] theorem State.setHalfWords_detail (s : State) (h : Half) (l : List Word16) : (s.setHalfWords h l).detail = s.detail := by cases h <;> rfl
@[simp] theorem State.setHalfWords_faultCause (s : State) (h : Half) (l : List Word16) : (s.setHalfWords h l).faultCause = s.faultCause := by cases h <;> rfl
@[simp] theorem State.setHalfWords_faultHalf (s : State) (h : Half) (l : List Word16) : (s.setHalfWords h l).faultHalf = s.faultHalf := by cases h <;> rfl
@[simp] theorem State.setHalfWords_armed (s : State) (h : Half) (l : List Word16) : (s.setHalfWords h l).armed = s.armed := by cases h <;> rfl
@[simp] theorem State.setHalfWords_pend0 (s : State) (h : Half) (l : List Word16) : (s.setHalfWords h l).pend0 = s.pend0 := by cases h <;> rfl
@[simp] theorem State.setHalfWords_pend1 (s : State) (h : Half) (l : List Word16) : (s.setHalfWords h l).pend1 = s.pend1 := by cases h <;> rfl
@[simp] theorem State.setHalfWords_own0 (s : State) (h : Half) (l : List Word16) : (s.setHalfWords h l).own0 = s.own0 := by cases h <;> rfl
@[simp] theorem State.setHalfWords_own1 (s : State) (h : Half) (l : List Word16) : (s.setHalfWords h l).own1 = s.own1 := by cases h <;> rfl
@[simp] theorem State.setHalfWords_nextEvt (s : State) (h : Half) (l : List Word16) : (s.setHalfWords h l).nextEvt = s.nextEvt := by cases h <;> rfl
@[simp] theorem State.setHalfWords_nextProc (s : State) (h : Half) (l : List Word16) : (s.setHalfWords h l).nextProc = s.nextProc := by cases h <;> rfl
@[simp] theorem State.setHalfWords_cursor (s : State) (h : Half) (l : List Word16) : (s.setHalfWords h l).cursor = s.cursor := by cases h <;> rfl
@[simp] theorem State.setHalfWords_destAddr (s : State) (h : Half) (l : List Word16) : (s.setHalfWords h l).destAddr = s.destAddr := by cases h <;> rfl
@[simp] theorem State.setHalfWords_destLen (s : State) (h : Half) (l : List Word16) : (s.setHalfWords h l).destLen = s.destLen := by cases h <;> rfl
@[simp] theorem State.setHalfWords_cb (s : State) (h : Half) (l : List Word16) : (s.setHalfWords h l).cb = s.cb := by cases h <;> rfl
@[simp] theorem State.setHalfWords_rate (s : State) (h : Half) (l : List Word16) : (s.setHalfWords h l).rate = s.rate := by cases h <;> rfl
@[simp] theorem State.setHalfWords_lastSinc (s : State) (h : Half) (l : List Word16) : (s.setHalfWords h l).lastSinc = s.lastSinc := by cases h <;> rfl
@[simp] theorem State.setHalfWords_lastPcm (s : State) (h : Half) (l : List Word16) : (s.setHalfWords h l).lastPcm = s.lastPcm := by cases h <;> rfl
@[simp] theorem State.setHalfWords_written (s : State) (h : Half) (l : List Word16) : (s.setHalfWords h l).written = s.written := by cases h <;> rfl
@[simp] theorem State.setHalfWords_delay (s : State) (h : Half) (l : List Word16) : (s.setHalfWords h l).delay = s.delay := by cases h <;> rfl
@[simp] theorem State.setHalfWords_submitted (s : State) (h : Half) (l : List Word16) : (s.setHalfWords h l).submitted = s.submitted := by cases h <;> rfl
@[simp] theorem State.setHalfWords_mem (s : State) (h : Half) (l : List Word16) : (s.setHalfWords h l).mem = s.mem := by cases h <;> rfl
@[simp] theorem State.setHalfWords_rst (s : State) (h : Half) (l : List Word16) : (s.setHalfWords h l).rst = s.rst := by cases h <;> rfl
@[simp] theorem State.setHalfWords_inputs (s : State) (h : Half) (l : List Word16) : (s.setHalfWords h l).inputs = s.inputs := by cases h <;> rfl
@[simp] theorem State.setHalfWords_binding (s : State) (h : Half) (l : List Word16) : (s.setHalfWords h l).binding = s.binding := by cases h <;> rfl
@[simp] theorem State.setHalfWords_draws (s : State) (h : Half) (l : List Word16) : (s.setHalfWords h l).draws = s.draws := by cases h <;> rfl
@[simp] theorem State.setHalfWords_ret (s : State) (h : Half) (l : List Word16) : (s.setHalfWords h l).ret = s.ret := by cases h <;> rfl
@[simp] theorem State.setHalfWords_busData (s : State) (h : Half) (l : List Word16) : (s.setHalfWords h l).busData = s.busData := by cases h <;> rfl
@[simp] theorem State.setHalfWords_queueRun (s : State) (h : Half) (l : List Word16) : (s.setHalfWords h l).queueRun = s.queueRun := by cases h <;> rfl

/-! ### `State.clearWritten` -/

@[simp] theorem State.clearWritten_arg0 (s : State) (h : Half) : (s.clearWritten h).arg0 = s.arg0 := by cases h <;> rfl
@[simp] theorem State.clearWritten_arg1 (s : State) (h : Half) : (s.clearWritten h).arg1 = s.arg1 := by cases h <;> rfl
@[simp] theorem State.clearWritten_arg2 (s : State) (h : Half) : (s.clearWritten h).arg2 = s.arg2 := by cases h <;> rfl
@[simp] theorem State.clearWritten_st (s : State) (h : Half) : (s.clearWritten h).st = s.st := by cases h <;> rfl
@[simp] theorem State.clearWritten_fault (s : State) (h : Half) : (s.clearWritten h).fault = s.fault := by cases h <;> rfl
@[simp] theorem State.clearWritten_result (s : State) (h : Half) : (s.clearWritten h).result = s.result := by cases h <;> rfl
@[simp] theorem State.clearWritten_detail (s : State) (h : Half) : (s.clearWritten h).detail = s.detail := by cases h <;> rfl
@[simp] theorem State.clearWritten_faultCause (s : State) (h : Half) : (s.clearWritten h).faultCause = s.faultCause := by cases h <;> rfl
@[simp] theorem State.clearWritten_faultHalf (s : State) (h : Half) : (s.clearWritten h).faultHalf = s.faultHalf := by cases h <;> rfl
@[simp] theorem State.clearWritten_armed (s : State) (h : Half) : (s.clearWritten h).armed = s.armed := by cases h <;> rfl
@[simp] theorem State.clearWritten_pend0 (s : State) (h : Half) : (s.clearWritten h).pend0 = s.pend0 := by cases h <;> rfl
@[simp] theorem State.clearWritten_pend1 (s : State) (h : Half) : (s.clearWritten h).pend1 = s.pend1 := by cases h <;> rfl
@[simp] theorem State.clearWritten_own0 (s : State) (h : Half) : (s.clearWritten h).own0 = s.own0 := by cases h <;> rfl
@[simp] theorem State.clearWritten_own1 (s : State) (h : Half) : (s.clearWritten h).own1 = s.own1 := by cases h <;> rfl
@[simp] theorem State.clearWritten_nextEvt (s : State) (h : Half) : (s.clearWritten h).nextEvt = s.nextEvt := by cases h <;> rfl
@[simp] theorem State.clearWritten_nextProc (s : State) (h : Half) : (s.clearWritten h).nextProc = s.nextProc := by cases h <;> rfl
@[simp] theorem State.clearWritten_cursor (s : State) (h : Half) : (s.clearWritten h).cursor = s.cursor := by cases h <;> rfl
@[simp] theorem State.clearWritten_destAddr (s : State) (h : Half) : (s.clearWritten h).destAddr = s.destAddr := by cases h <;> rfl
@[simp] theorem State.clearWritten_destLen (s : State) (h : Half) : (s.clearWritten h).destLen = s.destLen := by cases h <;> rfl
@[simp] theorem State.clearWritten_cb (s : State) (h : Half) : (s.clearWritten h).cb = s.cb := by cases h <;> rfl
@[simp] theorem State.clearWritten_rate (s : State) (h : Half) : (s.clearWritten h).rate = s.rate := by cases h <;> rfl
@[simp] theorem State.clearWritten_lastSinc (s : State) (h : Half) : (s.clearWritten h).lastSinc = s.lastSinc := by cases h <;> rfl
@[simp] theorem State.clearWritten_lastPcm (s : State) (h : Half) : (s.clearWritten h).lastPcm = s.lastPcm := by cases h <;> rfl
@[simp] theorem State.clearWritten_buf (s : State) (h : Half) : (s.clearWritten h).buf = s.buf := by cases h <;> rfl
@[simp] theorem State.clearWritten_delay (s : State) (h : Half) : (s.clearWritten h).delay = s.delay := by cases h <;> rfl
@[simp] theorem State.clearWritten_submitted (s : State) (h : Half) : (s.clearWritten h).submitted = s.submitted := by cases h <;> rfl
@[simp] theorem State.clearWritten_mem (s : State) (h : Half) : (s.clearWritten h).mem = s.mem := by cases h <;> rfl
@[simp] theorem State.clearWritten_rst (s : State) (h : Half) : (s.clearWritten h).rst = s.rst := by cases h <;> rfl
@[simp] theorem State.clearWritten_inputs (s : State) (h : Half) : (s.clearWritten h).inputs = s.inputs := by cases h <;> rfl
@[simp] theorem State.clearWritten_binding (s : State) (h : Half) : (s.clearWritten h).binding = s.binding := by cases h <;> rfl
@[simp] theorem State.clearWritten_draws (s : State) (h : Half) : (s.clearWritten h).draws = s.draws := by cases h <;> rfl
@[simp] theorem State.clearWritten_ret (s : State) (h : Half) : (s.clearWritten h).ret = s.ret := by cases h <;> rfl
@[simp] theorem State.clearWritten_busData (s : State) (h : Half) : (s.clearWritten h).busData = s.busData := by cases h <;> rfl
@[simp] theorem State.clearWritten_queueRun (s : State) (h : Half) : (s.clearWritten h).queueRun = s.queueRun := by cases h <;> rfl

/-! ### `State.takeHalf` -/

@[simp] theorem State.takeHalf_arg0 (s : State) (h : Half) : (s.takeHalf h).arg0 = s.arg0 := by cases h <;> rfl
@[simp] theorem State.takeHalf_arg1 (s : State) (h : Half) : (s.takeHalf h).arg1 = s.arg1 := by cases h <;> rfl
@[simp] theorem State.takeHalf_arg2 (s : State) (h : Half) : (s.takeHalf h).arg2 = s.arg2 := by cases h <;> rfl
@[simp] theorem State.takeHalf_st (s : State) (h : Half) : (s.takeHalf h).st = s.st := by cases h <;> rfl
@[simp] theorem State.takeHalf_fault (s : State) (h : Half) : (s.takeHalf h).fault = s.fault := by cases h <;> rfl
@[simp] theorem State.takeHalf_result (s : State) (h : Half) : (s.takeHalf h).result = s.result := by cases h <;> rfl
@[simp] theorem State.takeHalf_detail (s : State) (h : Half) : (s.takeHalf h).detail = s.detail := by cases h <;> rfl
@[simp] theorem State.takeHalf_faultCause (s : State) (h : Half) : (s.takeHalf h).faultCause = s.faultCause := by cases h <;> rfl
@[simp] theorem State.takeHalf_faultHalf (s : State) (h : Half) : (s.takeHalf h).faultHalf = s.faultHalf := by cases h <;> rfl
@[simp] theorem State.takeHalf_armed (s : State) (h : Half) : (s.takeHalf h).armed = s.armed := by cases h <;> rfl
@[simp] theorem State.takeHalf_nextEvt (s : State) (h : Half) : (s.takeHalf h).nextEvt = h.other := by cases h <;> rfl
@[simp] theorem State.takeHalf_nextProc (s : State) (h : Half) : (s.takeHalf h).nextProc = s.nextProc := by cases h <;> rfl
@[simp] theorem State.takeHalf_cursor (s : State) (h : Half) : (s.takeHalf h).cursor = s.cursor := by cases h <;> rfl
@[simp] theorem State.takeHalf_destAddr (s : State) (h : Half) : (s.takeHalf h).destAddr = s.destAddr := by cases h <;> rfl
@[simp] theorem State.takeHalf_destLen (s : State) (h : Half) : (s.takeHalf h).destLen = s.destLen := by cases h <;> rfl
@[simp] theorem State.takeHalf_cb (s : State) (h : Half) : (s.takeHalf h).cb = s.cb := by cases h <;> rfl
@[simp] theorem State.takeHalf_rate (s : State) (h : Half) : (s.takeHalf h).rate = s.rate := by cases h <;> rfl
@[simp] theorem State.takeHalf_lastSinc (s : State) (h : Half) : (s.takeHalf h).lastSinc = s.lastSinc := by cases h <;> rfl
@[simp] theorem State.takeHalf_lastPcm (s : State) (h : Half) : (s.takeHalf h).lastPcm = s.lastPcm := by cases h <;> rfl
@[simp] theorem State.takeHalf_buf (s : State) (h : Half) : (s.takeHalf h).buf = s.buf := by cases h <;> rfl
@[simp] theorem State.takeHalf_written (s : State) (h : Half) : (s.takeHalf h).written = s.written := by cases h <;> rfl
@[simp] theorem State.takeHalf_delay (s : State) (h : Half) : (s.takeHalf h).delay = s.delay := by cases h <;> rfl
@[simp] theorem State.takeHalf_submitted (s : State) (h : Half) : (s.takeHalf h).submitted = s.submitted := by cases h <;> rfl
@[simp] theorem State.takeHalf_mem (s : State) (h : Half) : (s.takeHalf h).mem = s.mem := by cases h <;> rfl
@[simp] theorem State.takeHalf_rst (s : State) (h : Half) : (s.takeHalf h).rst = s.rst := by cases h <;> rfl
@[simp] theorem State.takeHalf_inputs (s : State) (h : Half) : (s.takeHalf h).inputs = s.inputs := by cases h <;> rfl
@[simp] theorem State.takeHalf_binding (s : State) (h : Half) : (s.takeHalf h).binding = s.binding := by cases h <;> rfl
@[simp] theorem State.takeHalf_draws (s : State) (h : Half) : (s.takeHalf h).draws = s.draws := by cases h <;> rfl
@[simp] theorem State.takeHalf_ret (s : State) (h : Half) : (s.takeHalf h).ret = s.ret := by cases h <;> rfl
@[simp] theorem State.takeHalf_busData (s : State) (h : Half) : (s.takeHalf h).busData = s.busData := by cases h <;> rfl
@[simp] theorem State.takeHalf_queueRun (s : State) (h : Half) : (s.takeHalf h).queueRun = s.queueRun := by cases h <;> rfl

/-! ### `State.returnHalf` -/

@[simp] theorem State.returnHalf_arg0 (s : State) (h : Half) : (s.returnHalf h).arg0 = s.arg0 := by cases h <;> rfl
@[simp] theorem State.returnHalf_arg1 (s : State) (h : Half) : (s.returnHalf h).arg1 = s.arg1 := by cases h <;> rfl
@[simp] theorem State.returnHalf_arg2 (s : State) (h : Half) : (s.returnHalf h).arg2 = s.arg2 := by cases h <;> rfl
@[simp] theorem State.returnHalf_st (s : State) (h : Half) : (s.returnHalf h).st = s.st := by cases h <;> rfl
@[simp] theorem State.returnHalf_fault (s : State) (h : Half) : (s.returnHalf h).fault = s.fault := by cases h <;> rfl
@[simp] theorem State.returnHalf_result (s : State) (h : Half) : (s.returnHalf h).result = s.result := by cases h <;> rfl
@[simp] theorem State.returnHalf_detail (s : State) (h : Half) : (s.returnHalf h).detail = s.detail := by cases h <;> rfl
@[simp] theorem State.returnHalf_faultCause (s : State) (h : Half) : (s.returnHalf h).faultCause = s.faultCause := by cases h <;> rfl
@[simp] theorem State.returnHalf_faultHalf (s : State) (h : Half) : (s.returnHalf h).faultHalf = s.faultHalf := by cases h <;> rfl
@[simp] theorem State.returnHalf_armed (s : State) (h : Half) : (s.returnHalf h).armed = s.armed := by cases h <;> rfl
@[simp] theorem State.returnHalf_nextEvt (s : State) (h : Half) : (s.returnHalf h).nextEvt = s.nextEvt := by cases h <;> rfl
@[simp] theorem State.returnHalf_nextProc (s : State) (h : Half) : (s.returnHalf h).nextProc = h.other := by cases h <;> rfl
@[simp] theorem State.returnHalf_cursor (s : State) (h : Half) : (s.returnHalf h).cursor = s.cursor := by cases h <;> rfl
@[simp] theorem State.returnHalf_destAddr (s : State) (h : Half) : (s.returnHalf h).destAddr = s.destAddr := by cases h <;> rfl
@[simp] theorem State.returnHalf_destLen (s : State) (h : Half) : (s.returnHalf h).destLen = s.destLen := by cases h <;> rfl
@[simp] theorem State.returnHalf_cb (s : State) (h : Half) : (s.returnHalf h).cb = s.cb := by cases h <;> rfl
@[simp] theorem State.returnHalf_rate (s : State) (h : Half) : (s.returnHalf h).rate = s.rate := by cases h <;> rfl
@[simp] theorem State.returnHalf_lastSinc (s : State) (h : Half) : (s.returnHalf h).lastSinc = s.lastSinc := by cases h <;> rfl
@[simp] theorem State.returnHalf_lastPcm (s : State) (h : Half) : (s.returnHalf h).lastPcm = s.lastPcm := by cases h <;> rfl
@[simp] theorem State.returnHalf_buf (s : State) (h : Half) : (s.returnHalf h).buf = s.buf := by cases h <;> rfl
@[simp] theorem State.returnHalf_written (s : State) (h : Half) : (s.returnHalf h).written = s.written := by cases h <;> rfl
@[simp] theorem State.returnHalf_delay (s : State) (h : Half) : (s.returnHalf h).delay = s.delay := by cases h <;> rfl
@[simp] theorem State.returnHalf_submitted (s : State) (h : Half) : (s.returnHalf h).submitted = s.submitted := by cases h <;> rfl
@[simp] theorem State.returnHalf_mem (s : State) (h : Half) : (s.returnHalf h).mem = s.mem := by cases h <;> rfl
@[simp] theorem State.returnHalf_rst (s : State) (h : Half) : (s.returnHalf h).rst = s.rst := by cases h <;> rfl
@[simp] theorem State.returnHalf_inputs (s : State) (h : Half) : (s.returnHalf h).inputs = s.inputs := by cases h <;> rfl
@[simp] theorem State.returnHalf_binding (s : State) (h : Half) : (s.returnHalf h).binding = s.binding := by cases h <;> rfl
@[simp] theorem State.returnHalf_draws (s : State) (h : Half) : (s.returnHalf h).draws = s.draws := by cases h <;> rfl
@[simp] theorem State.returnHalf_ret (s : State) (h : Half) : (s.returnHalf h).ret = s.ret := by cases h <;> rfl
@[simp] theorem State.returnHalf_busData (s : State) (h : Half) : (s.returnHalf h).busData = s.busData := by cases h <;> rfl
@[simp] theorem State.returnHalf_queueRun (s : State) (h : Half) : (s.returnHalf h).queueRun = s.queueRun := by cases h <;> rfl

/-! ### `State.clearHalves` -/

@[simp] theorem State.clearHalves_arg0 (s : State) : (s.clearHalves).arg0 = s.arg0 := rfl
@[simp] theorem State.clearHalves_arg1 (s : State) : (s.clearHalves).arg1 = s.arg1 := rfl
@[simp] theorem State.clearHalves_arg2 (s : State) : (s.clearHalves).arg2 = s.arg2 := rfl
@[simp] theorem State.clearHalves_st (s : State) : (s.clearHalves).st = s.st := rfl
@[simp] theorem State.clearHalves_fault (s : State) : (s.clearHalves).fault = s.fault := rfl
@[simp] theorem State.clearHalves_result (s : State) : (s.clearHalves).result = s.result := rfl
@[simp] theorem State.clearHalves_detail (s : State) : (s.clearHalves).detail = s.detail := rfl
@[simp] theorem State.clearHalves_faultCause (s : State) : (s.clearHalves).faultCause = s.faultCause := rfl
@[simp] theorem State.clearHalves_faultHalf (s : State) : (s.clearHalves).faultHalf = s.faultHalf := rfl
@[simp] theorem State.clearHalves_armed (s : State) : (s.clearHalves).armed = s.armed := rfl
@[simp] theorem State.clearHalves_pend0 (s : State) : (s.clearHalves).pend0 = false := rfl
@[simp] theorem State.clearHalves_pend1 (s : State) : (s.clearHalves).pend1 = false := rfl
@[simp] theorem State.clearHalves_own0 (s : State) : (s.clearHalves).own0 = false := rfl
@[simp] theorem State.clearHalves_own1 (s : State) : (s.clearHalves).own1 = false := rfl
@[simp] theorem State.clearHalves_nextEvt (s : State) : (s.clearHalves).nextEvt = s.nextEvt := rfl
@[simp] theorem State.clearHalves_nextProc (s : State) : (s.clearHalves).nextProc = s.nextProc := rfl
@[simp] theorem State.clearHalves_cursor (s : State) : (s.clearHalves).cursor = s.cursor := rfl
@[simp] theorem State.clearHalves_destAddr (s : State) : (s.clearHalves).destAddr = s.destAddr := rfl
@[simp] theorem State.clearHalves_destLen (s : State) : (s.clearHalves).destLen = s.destLen := rfl
@[simp] theorem State.clearHalves_cb (s : State) : (s.clearHalves).cb = s.cb := rfl
@[simp] theorem State.clearHalves_rate (s : State) : (s.clearHalves).rate = s.rate := rfl
@[simp] theorem State.clearHalves_lastSinc (s : State) : (s.clearHalves).lastSinc = s.lastSinc := rfl
@[simp] theorem State.clearHalves_lastPcm (s : State) : (s.clearHalves).lastPcm = s.lastPcm := rfl
@[simp] theorem State.clearHalves_buf (s : State) : (s.clearHalves).buf = s.buf := rfl
@[simp] theorem State.clearHalves_written (s : State) : (s.clearHalves).written = s.written := rfl
@[simp] theorem State.clearHalves_delay (s : State) : (s.clearHalves).delay = s.delay := rfl
@[simp] theorem State.clearHalves_submitted (s : State) : (s.clearHalves).submitted = s.submitted := rfl
@[simp] theorem State.clearHalves_mem (s : State) : (s.clearHalves).mem = s.mem := rfl
@[simp] theorem State.clearHalves_rst (s : State) : (s.clearHalves).rst = s.rst := rfl
@[simp] theorem State.clearHalves_inputs (s : State) : (s.clearHalves).inputs = s.inputs := rfl
@[simp] theorem State.clearHalves_binding (s : State) : (s.clearHalves).binding = s.binding := rfl
@[simp] theorem State.clearHalves_draws (s : State) : (s.clearHalves).draws = s.draws := rfl
@[simp] theorem State.clearHalves_ret (s : State) : (s.clearHalves).ret = s.ret := rfl
@[simp] theorem State.clearHalves_busData (s : State) : (s.clearHalves).busData = s.busData := rfl
@[simp] theorem State.clearHalves_queueRun (s : State) : (s.clearHalves).queueRun = s.queueRun := rfl

/-! ### `State.faultEntry` -/

@[simp] theorem State.faultEntry_arg0 (s : State) (c : FaultCause) (h : Half) : (s.faultEntry c h).arg0 = s.arg0 := rfl
@[simp] theorem State.faultEntry_arg1 (s : State) (c : FaultCause) (h : Half) : (s.faultEntry c h).arg1 = s.arg1 := rfl
@[simp] theorem State.faultEntry_arg2 (s : State) (c : FaultCause) (h : Half) : (s.faultEntry c h).arg2 = s.arg2 := rfl
@[simp] theorem State.faultEntry_st (s : State) (c : FaultCause) (h : Half) : (s.faultEntry c h).st = .stopped := rfl
@[simp] theorem State.faultEntry_fault (s : State) (c : FaultCause) (h : Half) : (s.faultEntry c h).fault = true := rfl
@[simp] theorem State.faultEntry_result (s : State) (c : FaultCause) (h : Half) : (s.faultEntry c h).result = s.result := rfl
@[simp] theorem State.faultEntry_detail (s : State) (c : FaultCause) (h : Half) : (s.faultEntry c h).detail = s.detail := rfl
@[simp] theorem State.faultEntry_faultCause (s : State) (c : FaultCause) (h : Half) : (s.faultEntry c h).faultCause = c := rfl
@[simp] theorem State.faultEntry_faultHalf (s : State) (c : FaultCause) (h : Half) : (s.faultEntry c h).faultHalf = h := rfl
@[simp] theorem State.faultEntry_armed (s : State) (c : FaultCause) (h : Half) : (s.faultEntry c h).armed = false := rfl
@[simp] theorem State.faultEntry_pend0 (s : State) (c : FaultCause) (h : Half) : (s.faultEntry c h).pend0 = false := rfl
@[simp] theorem State.faultEntry_pend1 (s : State) (c : FaultCause) (h : Half) : (s.faultEntry c h).pend1 = false := rfl
@[simp] theorem State.faultEntry_own0 (s : State) (c : FaultCause) (h : Half) : (s.faultEntry c h).own0 = false := rfl
@[simp] theorem State.faultEntry_own1 (s : State) (c : FaultCause) (h : Half) : (s.faultEntry c h).own1 = false := rfl
@[simp] theorem State.faultEntry_nextEvt (s : State) (c : FaultCause) (h : Half) : (s.faultEntry c h).nextEvt = s.nextEvt := rfl
@[simp] theorem State.faultEntry_nextProc (s : State) (c : FaultCause) (h : Half) : (s.faultEntry c h).nextProc = s.nextProc := rfl
@[simp] theorem State.faultEntry_cursor (s : State) (c : FaultCause) (h : Half) : (s.faultEntry c h).cursor = s.cursor := rfl
@[simp] theorem State.faultEntry_destAddr (s : State) (c : FaultCause) (h : Half) : (s.faultEntry c h).destAddr = s.destAddr := rfl
@[simp] theorem State.faultEntry_destLen (s : State) (c : FaultCause) (h : Half) : (s.faultEntry c h).destLen = s.destLen := rfl
@[simp] theorem State.faultEntry_cb (s : State) (c : FaultCause) (h : Half) : (s.faultEntry c h).cb = s.cb := rfl
@[simp] theorem State.faultEntry_rate (s : State) (c : FaultCause) (h : Half) : (s.faultEntry c h).rate = s.rate := rfl
@[simp] theorem State.faultEntry_lastSinc (s : State) (c : FaultCause) (h : Half) : (s.faultEntry c h).lastSinc = s.lastSinc := rfl
@[simp] theorem State.faultEntry_lastPcm (s : State) (c : FaultCause) (h : Half) : (s.faultEntry c h).lastPcm = s.lastPcm := rfl
@[simp] theorem State.faultEntry_buf (s : State) (c : FaultCause) (h : Half) : (s.faultEntry c h).buf = s.buf := rfl
@[simp] theorem State.faultEntry_written (s : State) (c : FaultCause) (h : Half) : (s.faultEntry c h).written = s.written := rfl
@[simp] theorem State.faultEntry_delay (s : State) (c : FaultCause) (h : Half) : (s.faultEntry c h).delay = s.delay := rfl
@[simp] theorem State.faultEntry_submitted (s : State) (c : FaultCause) (h : Half) : (s.faultEntry c h).submitted = s.submitted := rfl
@[simp] theorem State.faultEntry_mem (s : State) (c : FaultCause) (h : Half) : (s.faultEntry c h).mem = s.mem := rfl
@[simp] theorem State.faultEntry_rst (s : State) (c : FaultCause) (h : Half) : (s.faultEntry c h).rst = s.rst := rfl
@[simp] theorem State.faultEntry_inputs (s : State) (c : FaultCause) (h : Half) : (s.faultEntry c h).inputs = s.inputs := rfl
@[simp] theorem State.faultEntry_binding (s : State) (c : FaultCause) (h : Half) : (s.faultEntry c h).binding = s.binding := rfl
@[simp] theorem State.faultEntry_draws (s : State) (c : FaultCause) (h : Half) : (s.faultEntry c h).draws = s.draws := rfl
@[simp] theorem State.faultEntry_ret (s : State) (c : FaultCause) (h : Half) : (s.faultEntry c h).ret = s.ret := rfl
@[simp] theorem State.faultEntry_busData (s : State) (c : FaultCause) (h : Half) : (s.faultEntry c h).busData = s.busData := rfl
@[simp] theorem State.faultEntry_queueRun (s : State) (c : FaultCause) (h : Half) : (s.faultEntry c h).queueRun = s.queueRun := rfl

/-! ### `State.storeSample` -/

@[simp] theorem State.storeSample_arg0 (s : State) (p : Word16) : (s.storeSample p).arg0 = s.arg0 := rfl
@[simp] theorem State.storeSample_arg1 (s : State) (p : Word16) : (s.storeSample p).arg1 = s.arg1 := rfl
@[simp] theorem State.storeSample_arg2 (s : State) (p : Word16) : (s.storeSample p).arg2 = s.arg2 := rfl
@[simp] theorem State.storeSample_st (s : State) (p : Word16) : (s.storeSample p).st = s.st := rfl
@[simp] theorem State.storeSample_fault (s : State) (p : Word16) : (s.storeSample p).fault = s.fault := rfl
@[simp] theorem State.storeSample_result (s : State) (p : Word16) : (s.storeSample p).result = s.result := rfl
@[simp] theorem State.storeSample_detail (s : State) (p : Word16) : (s.storeSample p).detail = s.detail := rfl
@[simp] theorem State.storeSample_faultCause (s : State) (p : Word16) : (s.storeSample p).faultCause = s.faultCause := rfl
@[simp] theorem State.storeSample_faultHalf (s : State) (p : Word16) : (s.storeSample p).faultHalf = s.faultHalf := rfl
@[simp] theorem State.storeSample_armed (s : State) (p : Word16) : (s.storeSample p).armed = s.armed := rfl
@[simp] theorem State.storeSample_pend0 (s : State) (p : Word16) : (s.storeSample p).pend0 = s.pend0 := rfl
@[simp] theorem State.storeSample_pend1 (s : State) (p : Word16) : (s.storeSample p).pend1 = s.pend1 := rfl
@[simp] theorem State.storeSample_own0 (s : State) (p : Word16) : (s.storeSample p).own0 = s.own0 := rfl
@[simp] theorem State.storeSample_own1 (s : State) (p : Word16) : (s.storeSample p).own1 = s.own1 := rfl
@[simp] theorem State.storeSample_nextEvt (s : State) (p : Word16) : (s.storeSample p).nextEvt = s.nextEvt := rfl
@[simp] theorem State.storeSample_nextProc (s : State) (p : Word16) : (s.storeSample p).nextProc = s.nextProc := rfl
@[simp] theorem State.storeSample_cursor (s : State) (p : Word16) : (s.storeSample p).cursor = s.cursor + 1#32 := rfl
@[simp] theorem State.storeSample_destAddr (s : State) (p : Word16) : (s.storeSample p).destAddr = s.destAddr := rfl
@[simp] theorem State.storeSample_destLen (s : State) (p : Word16) : (s.storeSample p).destLen = s.destLen := rfl
@[simp] theorem State.storeSample_cb (s : State) (p : Word16) : (s.storeSample p).cb = s.cb := rfl
@[simp] theorem State.storeSample_rate (s : State) (p : Word16) : (s.storeSample p).rate = s.rate := rfl
@[simp] theorem State.storeSample_lastSinc (s : State) (p : Word16) : (s.storeSample p).lastSinc = s.lastSinc := rfl
@[simp] theorem State.storeSample_lastPcm (s : State) (p : Word16) : (s.storeSample p).lastPcm = s.lastPcm := rfl
@[simp] theorem State.storeSample_buf (s : State) (p : Word16) : (s.storeSample p).buf = s.buf := rfl
@[simp] theorem State.storeSample_written (s : State) (p : Word16) : (s.storeSample p).written = s.written := rfl
@[simp] theorem State.storeSample_delay (s : State) (p : Word16) : (s.storeSample p).delay = s.delay := rfl
@[simp] theorem State.storeSample_submitted (s : State) (p : Word16) : (s.storeSample p).submitted = s.submitted := rfl
@[simp] theorem State.storeSample_mem (s : State) (p : Word16) : (s.storeSample p).mem = Memory.writeSample s.mem s.sampleAddr p := rfl
@[simp] theorem State.storeSample_rst (s : State) (p : Word16) : (s.storeSample p).rst = s.rst := rfl
@[simp] theorem State.storeSample_inputs (s : State) (p : Word16) : (s.storeSample p).inputs = s.inputs := rfl
@[simp] theorem State.storeSample_binding (s : State) (p : Word16) : (s.storeSample p).binding = s.binding := rfl
@[simp] theorem State.storeSample_draws (s : State) (p : Word16) : (s.storeSample p).draws = s.draws := rfl
@[simp] theorem State.storeSample_ret (s : State) (p : Word16) : (s.storeSample p).ret = s.ret := rfl
@[simp] theorem State.storeSample_busData (s : State) (p : Word16) : (s.storeSample p).busData = s.busData := rfl
@[simp] theorem State.storeSample_queueRun (s : State) (p : Word16) : (s.storeSample p).queueRun = s.queueRun := rfl

/-! ### `State.endCapture` -/

@[simp] theorem State.endCapture_arg0 (s : State) : (s.endCapture).arg0 = s.arg0 := rfl
@[simp] theorem State.endCapture_arg1 (s : State) : (s.endCapture).arg1 = s.arg1 := rfl
@[simp] theorem State.endCapture_arg2 (s : State) : (s.endCapture).arg2 = s.arg2 := rfl
@[simp] theorem State.endCapture_st (s : State) : (s.endCapture).st = .configured := rfl
@[simp] theorem State.endCapture_fault (s : State) : (s.endCapture).fault = s.fault := rfl
@[simp] theorem State.endCapture_result (s : State) : (s.endCapture).result = s.result := rfl
@[simp] theorem State.endCapture_detail (s : State) : (s.endCapture).detail = s.detail := rfl
@[simp] theorem State.endCapture_faultCause (s : State) : (s.endCapture).faultCause = s.faultCause := rfl
@[simp] theorem State.endCapture_faultHalf (s : State) : (s.endCapture).faultHalf = s.faultHalf := rfl
@[simp] theorem State.endCapture_armed (s : State) : (s.endCapture).armed = s.armed := rfl
@[simp] theorem State.endCapture_pend0 (s : State) : (s.endCapture).pend0 = s.pend0 := rfl
@[simp] theorem State.endCapture_pend1 (s : State) : (s.endCapture).pend1 = s.pend1 := rfl
@[simp] theorem State.endCapture_own0 (s : State) : (s.endCapture).own0 = s.own0 := rfl
@[simp] theorem State.endCapture_own1 (s : State) : (s.endCapture).own1 = s.own1 := rfl
@[simp] theorem State.endCapture_nextEvt (s : State) : (s.endCapture).nextEvt = s.nextEvt := rfl
@[simp] theorem State.endCapture_nextProc (s : State) : (s.endCapture).nextProc = s.nextProc := rfl
@[simp] theorem State.endCapture_cursor (s : State) : (s.endCapture).cursor = 0#32 := rfl
@[simp] theorem State.endCapture_destAddr (s : State) : (s.endCapture).destAddr = s.destAddr := rfl
@[simp] theorem State.endCapture_destLen (s : State) : (s.endCapture).destLen = s.destLen := rfl
@[simp] theorem State.endCapture_cb (s : State) : (s.endCapture).cb = s.cb := rfl
@[simp] theorem State.endCapture_rate (s : State) : (s.endCapture).rate = s.rate := rfl
@[simp] theorem State.endCapture_lastSinc (s : State) : (s.endCapture).lastSinc = s.lastSinc := rfl
@[simp] theorem State.endCapture_lastPcm (s : State) : (s.endCapture).lastPcm = s.lastPcm := rfl
@[simp] theorem State.endCapture_buf (s : State) : (s.endCapture).buf = s.buf := rfl
@[simp] theorem State.endCapture_written (s : State) : (s.endCapture).written = s.written := rfl
@[simp] theorem State.endCapture_delay (s : State) : (s.endCapture).delay = s.delay := rfl
@[simp] theorem State.endCapture_submitted (s : State) : (s.endCapture).submitted = s.submitted ++ [⟨s.cb, s.destAddr⟩] := rfl
@[simp] theorem State.endCapture_mem (s : State) : (s.endCapture).mem = s.mem := rfl
@[simp] theorem State.endCapture_rst (s : State) : (s.endCapture).rst = s.rst := rfl
@[simp] theorem State.endCapture_inputs (s : State) : (s.endCapture).inputs = s.inputs := rfl
@[simp] theorem State.endCapture_binding (s : State) : (s.endCapture).binding = s.binding := rfl
@[simp] theorem State.endCapture_draws (s : State) : (s.endCapture).draws = s.draws := rfl
@[simp] theorem State.endCapture_ret (s : State) : (s.endCapture).ret = s.ret := rfl
@[simp] theorem State.endCapture_busData (s : State) : (s.endCapture).busData = s.busData := rfl
@[simp] theorem State.endCapture_queueRun (s : State) : (s.endCapture).queueRun = s.queueRun := rfl

/-! ### `State.drawBinding` -/

@[simp] theorem State.drawBinding_arg0 (s : State) : (s.drawBinding).arg0 = s.arg0 := rfl
@[simp] theorem State.drawBinding_arg1 (s : State) : (s.drawBinding).arg1 = s.arg1 := rfl
@[simp] theorem State.drawBinding_arg2 (s : State) : (s.drawBinding).arg2 = s.arg2 := rfl
@[simp] theorem State.drawBinding_st (s : State) : (s.drawBinding).st = s.st := rfl
@[simp] theorem State.drawBinding_fault (s : State) : (s.drawBinding).fault = s.fault := rfl
@[simp] theorem State.drawBinding_result (s : State) : (s.drawBinding).result = s.result := rfl
@[simp] theorem State.drawBinding_detail (s : State) : (s.drawBinding).detail = s.detail := rfl
@[simp] theorem State.drawBinding_faultCause (s : State) : (s.drawBinding).faultCause = s.faultCause := rfl
@[simp] theorem State.drawBinding_faultHalf (s : State) : (s.drawBinding).faultHalf = s.faultHalf := rfl
@[simp] theorem State.drawBinding_armed (s : State) : (s.drawBinding).armed = s.armed := rfl
@[simp] theorem State.drawBinding_pend0 (s : State) : (s.drawBinding).pend0 = s.pend0 := rfl
@[simp] theorem State.drawBinding_pend1 (s : State) : (s.drawBinding).pend1 = s.pend1 := rfl
@[simp] theorem State.drawBinding_own0 (s : State) : (s.drawBinding).own0 = s.own0 := rfl
@[simp] theorem State.drawBinding_own1 (s : State) : (s.drawBinding).own1 = s.own1 := rfl
@[simp] theorem State.drawBinding_nextEvt (s : State) : (s.drawBinding).nextEvt = s.nextEvt := rfl
@[simp] theorem State.drawBinding_nextProc (s : State) : (s.drawBinding).nextProc = s.nextProc := rfl
@[simp] theorem State.drawBinding_cursor (s : State) : (s.drawBinding).cursor = s.cursor := rfl
@[simp] theorem State.drawBinding_destAddr (s : State) : (s.drawBinding).destAddr = s.destAddr := rfl
@[simp] theorem State.drawBinding_destLen (s : State) : (s.drawBinding).destLen = s.destLen := rfl
@[simp] theorem State.drawBinding_cb (s : State) : (s.drawBinding).cb = s.cb := rfl
@[simp] theorem State.drawBinding_rate (s : State) : (s.drawBinding).rate = s.rate := rfl
@[simp] theorem State.drawBinding_lastSinc (s : State) : (s.drawBinding).lastSinc = s.lastSinc := rfl
@[simp] theorem State.drawBinding_lastPcm (s : State) : (s.drawBinding).lastPcm = s.lastPcm := rfl
@[simp] theorem State.drawBinding_buf (s : State) : (s.drawBinding).buf = s.buf := rfl
@[simp] theorem State.drawBinding_written (s : State) : (s.drawBinding).written = s.written := rfl
@[simp] theorem State.drawBinding_delay (s : State) : (s.drawBinding).delay = s.delay := rfl
@[simp] theorem State.drawBinding_submitted (s : State) : (s.drawBinding).submitted = s.submitted := rfl
@[simp] theorem State.drawBinding_mem (s : State) : (s.drawBinding).mem = s.mem := rfl
@[simp] theorem State.drawBinding_rst (s : State) : (s.drawBinding).rst = s.rst := rfl
@[simp] theorem State.drawBinding_inputs (s : State) : (s.drawBinding).inputs = s.inputs := rfl
@[simp] theorem State.drawBinding_binding (s : State) : (s.drawBinding).binding = Config.freeBinding s.draws := rfl
@[simp] theorem State.drawBinding_draws (s : State) : (s.drawBinding).draws = s.draws + 1 := rfl
@[simp] theorem State.drawBinding_ret (s : State) : (s.drawBinding).ret = s.ret := rfl
@[simp] theorem State.drawBinding_busData (s : State) : (s.drawBinding).busData = s.busData := rfl
@[simp] theorem State.drawBinding_queueRun (s : State) : (s.drawBinding).queueRun = s.queueRun := rfl

/-! ### The halves' flags -/

@[simp] theorem Half.other_other (h : Half) : h.other.other = h := by cases h <;> rfl
@[simp] theorem Half.other_ne (h : Half) : h.other ≠ h := by cases h <;> simp [Half.other]
@[simp] theorem Half.ne_other (h : Half) : h ≠ h.other := by cases h <;> simp [Half.other]

@[simp] theorem State.pend_first (s : State) : s.pend .first = s.pend0 := rfl
@[simp] theorem State.pend_second (s : State) : s.pend .second = s.pend1 := rfl
@[simp] theorem State.own_first (s : State) : s.own .first = s.own0 := rfl
@[simp] theorem State.own_second (s : State) : s.own .second = s.own1 := rfl
@[simp] theorem State.takeHalf_pend_self (s : State) (h : Half) : (s.takeHalf h).pend h = true := by cases h <;> rfl
@[simp] theorem State.takeHalf_own_self (s : State) (h : Half) : (s.takeHalf h).own h = true := by cases h <;> rfl
@[simp] theorem State.takeHalf_pend_other (s : State) (h : Half) : (s.takeHalf h).pend h.other = s.pend h.other := by
  cases h <;> rfl
@[simp] theorem State.takeHalf_own_other (s : State) (h : Half) : (s.takeHalf h).own h.other = s.own h.other := by
  cases h <;> rfl
@[simp] theorem State.returnHalf_pend_self (s : State) (h : Half) : (s.returnHalf h).pend h = false := by
  cases h <;> rfl
@[simp] theorem State.returnHalf_own_self (s : State) (h : Half) : (s.returnHalf h).own h = false := by cases h <;> rfl
@[simp] theorem State.returnHalf_pend_other (s : State) (h : Half) :
    (s.returnHalf h).pend h.other = s.pend h.other := by cases h <;> rfl
@[simp] theorem State.returnHalf_own_other (s : State) (h : Half) : (s.returnHalf h).own h.other = s.own h.other := by
  cases h <;> rfl

/-! ### Derived flags -/

@[simp] theorem State.inProgress_iff (s : State) : s.inProgress = true ↔ s.st = .capturing := by
  simp [State.inProgress]
@[simp] theorem State.faultLine_eq (s : State) : s.faultLine = s.fault := rfl

end Sys2Proof.Machine
end

