-- ==== Sys2Proof/Laws/Ops.lean ====
section
/-! SUPPORT. For each shared operation, what it can do, said once. -/

namespace Sys2Proof.Machine

@[simp] theorem andThen_next (s : State) (f : State → Answer) : andThen (.next s) f = f s := rfl
@[simp] theorem andThen_fault (r : Fault) (f : State → Answer) : andThen (.fault r) f = .fault r := rfl
@[simp] theorem andThen_refused (r : Refusal) (f : State → Answer) : andThen (.refused r) f = .refused r := rfl

theorem andThen_eq_next_iff {o : Answer} {f : State → Answer} {t : State} :
    andThen o f = .next t ↔ ∃ u, o = .next u ∧ f u = .next t := by
  cases o <;> simp [andThen]

/-- A producer input either finds the block disarmed and changes nothing, or does what it does when armed. -/
theorem whileArmed_cases {s t : State} {o : Answer} (h : whileArmed s o = .next t) :
    (s.armed = false ∧ t = s) ∨ (s.armed = true ∧ o = .next t) := by
  unfold whileArmed at h
  split at h
  · exact .inr ⟨‹_›, h⟩
  · exact .inl ⟨eq_false_of_ne_true ‹_›, by simpa using h.symm⟩

/-- ACCEPT(h) raises SEQUENCE out of turn, OVERRUN_DETECTED on an owned half, and otherwise hands the half over. -/
theorem acceptHalf_cases {h : Half} {s t : State} (e : acceptHalf h s = .next t) :
    (h ≠ s.nextEvt ∧ t = s.faultEntry .sequence h) ∨
    (h = s.nextEvt ∧ s.own h = true ∧ t = s.faultEntry .overrunDetected h) ∨
    (h = s.nextEvt ∧ s.own h = false ∧ t = s.takeHalf h) := by
  unfold acceptHalf raiseFault at e
  split at e
  · exact .inl ⟨‹_›, by simpa using e.symm⟩
  · split at e
    · exact .inr (.inl ⟨by simpa using ‹¬ h ≠ _›, ‹_›, by simpa using e.symm⟩)
    · exact .inr (.inr ⟨by simpa using ‹¬ h ≠ _›, by simpa using ‹¬ s.own h = true›, by simpa using e.symm⟩)

/-- A reserved event changes nothing or enters the fault. -/
theorem reservedEvent_cases {s t : State} (e : reservedEvent s = .next t) :
    (s.armed = false ∧ t = s) ∨ (s.armed = true ∧ t = s.faultEntry .badEvent .first) := by
  rcases whileArmed_cases e with h | ⟨h, e⟩
  · exact .inl h
  · exact .inr ⟨h, by simpa [raiseFault] using e.symm⟩

/-- A producer word write: ignored, an overrun, or stored. -/
theorem execPdmWr_cases {idx : BitVec 3} {data : Word16} {s t : State} (e : execPdmWr idx data s = .next t) :
    (s.armed = false ∧ t = s) ∨
    (s.armed = true ∧ s.own (halfOfIndex idx.toNat) = true ∧
      t = s.faultEntry .overrunDetected (halfOfIndex idx.toNat)) ∨
    (s.armed = true ∧ s.own (halfOfIndex idx.toNat) = false ∧ t = s.putWord idx data) := by
  rcases whileArmed_cases e with h | ⟨h, e⟩
  · exact .inl h
  · split at e
    · exact .inr (.inl ⟨h, ‹_›, by simpa [raiseFault] using e.symm⟩)
    · exact .inr (.inr ⟨h, eq_false_of_ne_true ‹_›, by simpa using e.symm⟩)

/-- The sample delivery writes two accepted bytes and steps the cursor, and completes exactly when the destination is
full. -/
theorem deliverSample_cases {p : Word16} {s t : State} (e : deliverSample p s = .next t) :
    memAccepts s.sampleAddr = true ∧ memAccepts (s.sampleAddr + 1) = true ∧
      ((s.cursor + 1#32 = s.destLen ∧ t = (s.storeSample p).endCapture) ∨
       (s.cursor + 1#32 ≠ s.destLen ∧ t = s.storeSample p)) := by
  unfold deliverSample at e
  split at e
  · rename_i ha
    rw [Bool.and_eq_true] at ha
    refine ⟨ha.1, ha.2, ?_⟩
    simp only [Host.Outcome.next.injEq] at e
    split at e
    · exact .inl ⟨‹_›, e.symm⟩
    · exact .inr ⟨‹_›, e.symm⟩
  · cases e

/-- SEQ_PROCESS on a half needs every word written, and gives the half back after the pipeline and, in a capture, after
the delivery. -/
theorem processHalf_cases {h : Half} {s t : State} (e : processHalf h s = .next t) :
    s.firstUnwritten h = none ∧
      ((s.st ≠ .capturing ∧ t = (s.pipeHalf h).returnHalf h) ∨
       (s.st = .capturing ∧ ∃ u, deliverSample (s.sampleOf h) (s.pipeHalf h) = .next u ∧ t = u.returnHalf h)) := by
  unfold processHalf at e
  split at e
  · cases e
  · rename_i hw
    refine ⟨hw, ?_⟩
    split at e
    · rename_i hp
      obtain ⟨u, hu, ht⟩ := andThen_eq_next_iff.mp e
      exact .inr ⟨(State.inProgress_iff s).mp hp, u, hu, by simpa using ht.symm⟩
    · rename_i hp
      exact .inl ⟨fun h' => hp ((State.inProgress_iff s).mpr h'), by simpa using e.symm⟩

/-- The sequencer's step changes nothing unless it is enabled. -/
theorem execSeqProcess_cases {s t : State} (e : execSeqProcess s = .next t) :
    (s.seqEnabled = false ∧ t = s) ∨ (s.seqEnabled = true ∧ processHalf s.nextProc s = .next t) := by
  unfold execSeqProcess at e
  split at e
  · exact .inr ⟨‹_›, e⟩
  · exact .inl ⟨eq_false_of_ne_true ‹_›, by simpa using e.symm⟩

/-- START answers one of its six outcomes. -/
theorem execStart_cases {s t : State} (e : execStart s = .next t) :
    (∃ r, t = s.setResult r .none) ∨
    (s.st = .configured ∧ invocable s.arg2 = true ∧ s.arg1 = 0#32 ∧ t = s.startEmpty) ∨
    (s.st = .configured ∧ invocable s.arg2 = true ∧ s.arg1 ≠ 0#32 ∧ destOk s.arg0 s.arg1 = true ∧
      t = s.armCapture) := by
  have hst : ∀ d : DeviceState, ¬ (d = .uninitialized ∨ d = .stopped) → d ≠ .capturing → d = .configured := by
    intro d; cases d <;> simp
  unfold execStart at e
  split at e
  · exact .inl ⟨_, by simpa using e.symm⟩
  split at e
  · exact .inl ⟨_, by simpa using e.symm⟩
  have hc := hst s.st ‹_› ‹_›
  split at e
  · exact .inl ⟨_, by simpa using e.symm⟩
  have hi : invocable s.arg2 = true := by simpa using ‹¬ (!invocable s.arg2) = true›
  split at e
  · exact .inr (.inl ⟨hc, hi, ‹_›, by simpa using e.symm⟩)
  split at e
  · exact .inl ⟨_, by simpa using e.symm⟩
  · exact .inr (.inr ⟨hc, hi, ‹_›, by simpa using ‹¬ (!destOk s.arg0 s.arg1) = true›, by simpa using e.symm⟩)

/-- REGISTER_CALLBACK changes RESULT, and CB where it succeeds. -/
theorem execRegisterCallback_cases {s t : State} (e : execRegisterCallback s = .next t) :
    (∃ r, t = s.setResult r .none) ∨
    (s.st ≠ .uninitialized ∧ invocable s.arg0 = true ∧ t = State.setResult { s with cb := s.arg0 } .ok .none) := by
  unfold execRegisterCallback at e
  split at e
  · exact .inl ⟨_, by simpa using e.symm⟩
  split at e
  · exact .inl ⟨_, by simpa using e.symm⟩
  · exact .inr ⟨‹_›, by simpa using ‹¬ (!invocable s.arg0) = true›, by simpa using e.symm⟩

/-- CONFIGURE writes a result, draws an answer and writes a result, or configures the block. -/
theorem configureResult_cases (s : State) :
    (∃ r d, s.configureResult = s.setResult r d) ∨
    (s.st = .uninitialized ∧ ∃ d, s.configureResult = s.drawBinding.setResult .configError d) ∨
    (s.st = .uninitialized ∧ rateOk s.arg0 = true ∧ s.binding = .ok ∧ s.configureResult = s.configureDone) := by
  unfold State.configureResult
  split
  · exact .inl ⟨_, _, rfl⟩
  have hu : s.st = .uninitialized := by simpa using ‹¬ s.st ≠ _›
  split
  · exact .inl ⟨_, _, rfl⟩
  have hr : rateOk s.arg0 = true := by simpa using ‹¬ (!rateOk s.arg0) = true›
  split
  · exact .inl ⟨_, _, rfl⟩
  cases hb : s.binding with
  | ok => exact .inr (.inr ⟨hu, hr, rfl, by simp [State.bindAndArm, hb]⟩)
  | clockFail => exact .inr (.inl ⟨hu, _, by simp only [State.bindAndArm, hb]; rfl⟩)
  | bindFail => exact .inr (.inl ⟨hu, _, by simp only [State.bindAndArm, hb]; rfl⟩)
  | armFail => exact .inr (.inl ⟨hu, _, by simp only [State.bindAndArm, hb]; rfl⟩)

/-- Everything a producer input can do: nothing, fault entry, accepting a half, or storing a word. -/
theorem producer_cases {i : Instr} {s t : State} (hi : isProducer i = true) (e : exec i s = .next t) :
    t = s ∨
    (s.armed = true ∧ ∃ c h, c ≠ FaultCause.none ∧
      (c = .overrunReported ∨ c = .peripheral ∨ c = .badEvent → h = Half.first) ∧ t = s.faultEntry c h) ∨
    (s.armed = true ∧ ∃ h, h = s.nextEvt ∧ s.own h = false ∧ t = s.takeHalf h) ∨
    (s.armed = true ∧ ∃ idx data, i = .pdmWr idx data ∧ s.own (halfOfIndex idx.toNat) = false ∧
      t = s.putWord idx data) := by
  have acc : ∀ h, whileArmed s (acceptHalf h s) = .next t → t = s ∨
      (s.armed = true ∧ ∃ c h, c ≠ FaultCause.none ∧
        (c = .overrunReported ∨ c = .peripheral ∨ c = .badEvent → h = Half.first) ∧ t = s.faultEntry c h) ∨
      (s.armed = true ∧ ∃ h, h = s.nextEvt ∧ s.own h = false ∧ t = s.takeHalf h) := by
    intro h e
    rcases whileArmed_cases e with ⟨_, h⟩ | ⟨ha, e⟩
    · exact .inl h
    · rcases acceptHalf_cases e with ⟨_, h⟩ | ⟨_, _, h⟩ | ⟨h1, h2, h⟩
      · exact .inr (.inl ⟨ha, _, _, by simp, by simp, h⟩)
      · exact .inr (.inl ⟨ha, _, _, by simp, by simp, h⟩)
      · exact .inr (.inr ⟨ha, _, h1, h2, h⟩)
  have flt : ∀ c, c ≠ FaultCause.none → whileArmed s (raiseFault s c .first) = .next t → t = s ∨
      (s.armed = true ∧ ∃ c h, c ≠ FaultCause.none ∧
        (c = .overrunReported ∨ c = .peripheral ∨ c = .badEvent → h = Half.first) ∧ t = s.faultEntry c h) := by
    intro c hc e
    rcases whileArmed_cases e with ⟨_, h⟩ | ⟨ha, e⟩
    · exact .inl h
    · exact .inr ⟨ha, c, .first, hc, fun _ => rfl, by simpa [raiseFault] using e.symm⟩
  cases i <;> simp only [isProducer, Bool.false_eq_true] at hi
  case evtHalf => exact (acc _ e).imp_right fun h => h.imp_right .inl
  case evtFull => exact (acc _ e).imp_right fun h => h.imp_right .inl
  case pdmWr idx data =>
    rcases execPdmWr_cases e with ⟨_, h⟩ | ⟨ha, h1, h⟩ | ⟨ha, h1, h⟩
    · exact .inl h
    · exact .inr (.inl ⟨ha, _, _, by simp, by simp, h⟩)
    · exact .inr (.inr (.inr ⟨ha, _, _, rfl, h1, h⟩))
  all_goals exact (flt _ (by simp) e).imp_right .inl

/-- A register write stores into one ARG register, is ignored, or faults. -/
theorem hostWrite_cases {off : BitVec 6} {w : AccessWidth} {v : Word} {s t : State} (e : hostWrite off w v s = .next t) :
    t = s ∨ t = { s with arg0 := v } ∨ t = { s with arg1 := v } ∨ t = { s with arg2 := v } := by
  unfold hostWrite at e
  split at e
  · exact .inl (by simpa using e.symm)
  split at e
  · simp only [Host.Outcome.next.injEq] at e
    subst e
    unfold State.writeReg
    repeat' split
    · exact .inr (.inl rfl)
    · exact .inr (.inr (.inl rfl))
    · exact .inr (.inr (.inr rfl))
    · exact .inl rfl
  · cases e

/-- A register read changes only what the host's bus sees. -/
theorem hostRead_cases {off : BitVec 6} {w : AccessWidth} {s t : State} (e : hostRead off w s = .next t) :
    ∃ v, t = s.setBus v := by
  unfold hostRead at e
  split at e
  · exact ⟨_, by simpa using e.symm⟩
  split at e
  · exact ⟨_, by simpa using e.symm⟩
  · cases e

/-- A host store writes one accepted byte that is not in an armed destination. -/
theorem hostStore_cases {a : Word} {v : Byte} {s t : State} (e : hostStore a v s = .next t) :
    (s.inProgress && s.inDest a.toNat) = false ∧ memAccepts a.toNat = true ∧
      t = { s with mem := Memory.writeByte s.mem a.toNat v } := by
  unfold hostStore at e
  split at e
  · cases e
  split at e
  · exact ⟨by simpa using ‹¬ (s.inProgress && s.inDest a.toNat) = true›, ‹_›, by simpa using e.symm⟩
  · cases e

/-- Instruction bytes that arrive run the instruction they decode to, or nothing while `rst` is asserted. -/
theorem runBytes_cases {p : Port} {bytes : List Byte} {s t : State} (e : runBytes p bytes s = .next t) :
    (s.rst = true ∧ t = s) ∨ (s.rst = false ∧ ∃ i, decodeBytes p bytes = .ok i ∧ exec i s = .next t) := by
  unfold runBytes at e
  split at e
  · exact .inl ⟨‹_›, by simpa using e.symm⟩
  · split at e
    · exact .inr ⟨by simpa using ‹¬ s.rst = true›, _, ‹_›, e⟩
    · cases e

/-- The bytes an input carries are those of one of the three decoders, or the sequencer's turn. -/
theorem Input.carried_cases {i : Input} {p : Port} {bytes : List Byte} (h : i.carried = some (p, bytes)) :
    (∃ v, i = .regWrite 0x00#6 .w32 v ∧ p = .command ∧ bytes = commandBytes v) ∨
    (∃ c, i = .event c ∧ p = .event ∧ bytes = eventBytes c) ∨
    (∃ w, i = .pdmWrite w ∧ p = .pdmWrite ∧ bytes = pdmWriteBytes w) ∨
    (i = .sequencer ∧ p = .sequencer ∧ bytes = []) := by
  cases i with
  | regWrite off w v =>
    simp only [Input.carried] at h
    split at h
    · rename_i hc
      obtain ⟨rfl, rfl⟩ := hc
      simp only [Option.some.injEq, Prod.mk.injEq] at h
      exact .inl ⟨v, rfl, h.1.symm, h.2.symm⟩
    · cases h
  | event c =>
    simp only [Input.carried, Option.some.injEq, Prod.mk.injEq] at h
    exact .inr (.inl ⟨c, rfl, h.1.symm, h.2.symm⟩)
  | pdmWrite w =>
    simp only [Input.carried, Option.some.injEq, Prod.mk.injEq] at h
    exact .inr (.inr (.inl ⟨w, rfl, h.1.symm, h.2.symm⟩))
  | sequencer =>
    simp only [Input.carried, Option.some.injEq, Prod.mk.injEq] at h
    exact .inr (.inr (.inr ⟨rfl, h.1.symm, h.2.symm⟩))
  | regRead _ _ => cases h
  | hostStore _ _ => cases h
  | together _ _ => cases h
  | bindingAnswer _ => cases h
  | runQueue => cases h
  | resetAssert => cases h
  | resetRelease => cases h

/-- A step takes the next input, or the sequencer's turn where none is scheduled. -/
theorem step_cases {s t : State} (e : step s = .next t) :
    (s.inputs = [] ∧ runInput .sequencer s = .next t) ∨
    (∃ i rest, s.inputs = i :: rest ∧ runInput i (s.setInputs rest) = .next t) := by
  unfold step at e
  split at e
  · exact .inl ⟨‹_›, e⟩
  · exact .inr ⟨_, _, ‹_›, e⟩

/-- An input runs the instruction it carries, or does what an input that carries none does. -/
theorem runInput_cases {i : Input} {s t : State} (e : runInput i s = .next t) :
    (∃ p bytes, i.carried = some (p, bytes) ∧ runBytes p bytes s = .next t) ∨
    (i.carried = none ∧ runOther i s = .next t) := by
  unfold runInput at e
  split at e
  · exact .inl ⟨_, _, ‹_›, e⟩
  · exact .inr ⟨‹_›, e⟩

end Sys2Proof.Machine
end

