-- ==== Sys2Proof/Laws/PerInstr.lean ====
section
/-! SUPPORT. Families of statements made for each instruction: the length of its encoding. -/

/-- An encoded instruction has as many bytes as its interface carries (`30_encoding.md` R90). -/
def Sys2Proof.Laws.EncodedLength.Statement (i : Sys2Proof.Instr) : Prop :=
  ∀ p bytes, Sys2Proof.encode i = some (p, bytes) → bytes.length = p.bytes

namespace Sys2Proof.Laws

theorem encodedLength_of_eq {i : Instr} {q : Port} {l : List Byte} (h : encode i = some (q, l)) (hl : l.length = q.bytes) :
    EncodedLength.Statement i := by
  intro p bytes e
  rw [h] at e
  simp only [Option.some.injEq, Prod.mk.injEq] at e
  rw [← e.1, ← e.2, hl]

theorem encodedLength_of_none {i : Instr} (h : encode i = none) : EncodedLength.Statement i := by
  intro p bytes e
  rw [h] at e
  cases e

theorem EncodedLength.configure : EncodedLength.Statement .configure := encodedLength_of_eq rfl rfl
theorem EncodedLength.start : EncodedLength.Statement .start := encodedLength_of_eq rfl rfl
theorem EncodedLength.registerCallback : EncodedLength.Statement .registerCallback := encodedLength_of_eq rfl rfl
theorem EncodedLength.cancel : EncodedLength.Statement .cancel := encodedLength_of_eq rfl rfl
theorem EncodedLength.deinit : EncodedLength.Statement .deinit := encodedLength_of_eq rfl rfl
theorem EncodedLength.illegalCmd (op : BitVec 8) (rsv : BitVec 24) : EncodedLength.Statement (.illegalCmd op rsv) :=
  encodedLength_of_eq rfl rfl
theorem EncodedLength.evtHalf : EncodedLength.Statement .evtHalf := encodedLength_of_eq rfl rfl
theorem EncodedLength.evtFull : EncodedLength.Statement .evtFull := encodedLength_of_eq rfl rfl
theorem EncodedLength.evtErrOverrun : EncodedLength.Statement .evtErrOverrun := encodedLength_of_eq rfl rfl
theorem EncodedLength.evtErrPeripheral : EncodedLength.Statement .evtErrPeripheral := encodedLength_of_eq rfl rfl
theorem EncodedLength.evtReserved0 : EncodedLength.Statement .evtReserved0 := encodedLength_of_eq rfl rfl
theorem EncodedLength.evtReserved5 : EncodedLength.Statement .evtReserved5 := encodedLength_of_eq rfl rfl
theorem EncodedLength.evtReserved67 (low : BitVec 1) : EncodedLength.Statement (.evtReserved67 low) :=
  encodedLength_of_eq rfl rfl
theorem EncodedLength.evtReserved8F (low : BitVec 3) : EncodedLength.Statement (.evtReserved8F low) :=
  encodedLength_of_eq rfl rfl
theorem EncodedLength.pdmWr (idx : BitVec 3) (data : Word16) : EncodedLength.Statement (.pdmWr idx data) :=
  encodedLength_of_eq rfl rfl
theorem EncodedLength.seqProcess : EncodedLength.Statement .seqProcess := encodedLength_of_eq rfl rfl
theorem EncodedLength.sincDecimate (h : Half) : EncodedLength.Statement (.sincDecimate h) := encodedLength_of_none rfl
theorem EncodedLength.firStep (x : Word) : EncodedLength.Statement (.firStep x) := encodedLength_of_none rfl
theorem EncodedLength.pcmNarrow (y : F32) : EncodedLength.Statement (.pcmNarrow y) := encodedLength_of_none rfl
theorem EncodedLength.onSample (p : Word16) : EncodedLength.Statement (.onSample p) := encodedLength_of_none rfl
theorem EncodedLength.complete : EncodedLength.Statement .complete := encodedLength_of_none rfl

end Sys2Proof.Laws
end

