-- ==== Sys2Proof/Tests/Slice0.lean ====
section
/-! SUPPORT. Tests: words decoded as the spec writes them, ill-formed terms refused, the datapath on the vectors of
`95_test_vectors.md` (V1 to V31), one step of each instruction (V40 to V107), and states that meet the hypotheses of the
statements. Expected values are the spec's. -/

namespace Sys2Proof.Tests

open Sys2Proof.Machine

/-! ### Words, as `30_encoding.md` writes them -/

theorem test_decode_configure : decodeTableWord 32 0x00000001 = some .configure := by decide
theorem test_decode_start : decodeTableWord 32 0x00000002 = some .start := by decide
theorem test_decode_registerCallback : decodeTableWord 32 0x00000003 = some .registerCallback := by decide
theorem test_decode_cancel : decodeTableWord 32 0x00000004 = some .cancel := by decide
theorem test_decode_deinit : decodeTableWord 32 0x00000005 = some .deinit := by decide
theorem test_decode_illegal_zero : decodeTableWord 32 0x00000000 = some (.illegalCmd 0x00#8 0x000000#24) := by decide
theorem test_decode_illegal_reserved_bit : decodeTableWord 32 0x00000102 = some (.illegalCmd 0x02#8 0x000001#24) := by
  decide
theorem test_decode_illegal_top_bit : decodeTableWord 32 0x80000005 = some (.illegalCmd 0x05#8 0x800000#24) := by decide
theorem test_decode_evtHalf : decodeTableWord 4 0x1 = some .evtHalf := by decide
theorem test_decode_evtFull : decodeTableWord 8 0x2 = some .evtFull := by decide
theorem test_decode_evtErrOverrun : decodeTableWord 4 0x3 = some .evtErrOverrun := by decide
theorem test_decode_evtErrPeripheral : decodeTableWord 8 0x4 = some .evtErrPeripheral := by decide
theorem test_decode_evtReserved0 : decodeTableWord 8 0x0 = some .evtReserved0 := by decide
theorem test_decode_evtReserved5 : decodeTableWord 8 0x5 = some .evtReserved5 := by decide
theorem test_decode_evtReserved67 : decodeTableWord 8 0x6 = some (.evtReserved67 0#1) := by decide
theorem test_decode_evtReserved67_high : decodeTableWord 8 0x7 = some (.evtReserved67 1#1) := by decide
theorem test_decode_evtReserved8F : decodeTableWord 8 0x8 = some (.evtReserved8F 0#3) := by decide
theorem test_decode_evtReserved8F_high : decodeTableWord 8 0xF = some (.evtReserved8F 7#3) := by decide
theorem test_decode_pdmWr : decodeTableWord 19 0x2BEEF = some (.pdmWr 2#3 0xBEEF#16) := by decide
theorem test_decode_pdmWr_high : decodeTableWord 24 0x7FFFF = some (.pdmWr 7#3 0xFFFF#16) := by decide
theorem test_decode_turn : decodeTableWord 0 0 = some .seqProcess := by decide
theorem test_decode_stray_bits : decodeTableWord 8 0x11 = none ∧ decodeTableWord 24 0x82BEEF = none := by decide

/-- The bytes of a command word stand with bits 7 to 0 first (`20_memory.md` R64). -/
theorem test_decode_bytes : decodeBytes .command [0x04#8, 0x00#8, 0x00#8, 0x00#8] = .ok .cancel
    ∧ decodeBytes .command [0x00#8, 0x00#8, 0x00#8, 0x04#8] = .ok (.illegalCmd 0x00#8 0x040000#24) := ⟨rfl, rfl⟩

/-- The datapath operations have no encoding (`30_encoding.md` R105). -/
theorem test_internal_not_encoded (h : Half) (x : Word) (p : Word16) :
    encode (.sincDecimate h) = none ∧ encode (.firStep x) = none ∧ encode (.pcmNarrow x) = none
      ∧ encode (.onSample p) = none ∧ encode .complete = none := ⟨rfl, rfl, rfl, rfl, rfl⟩

/-! ### Ill-formed terms are refused -/

theorem test_wf_illegal_legal_word : (Instr.illegalCmd 0x02#8 0x000000#24).wf = false := by decide
theorem test_wf_illegal_rsv : (Instr.illegalCmd 0x02#8 0x000001#24).wf = true := by decide
theorem test_wf_illegal_op : (Instr.illegalCmd 0x06#8 0x000000#24).wf = true := by decide
theorem test_wf_firStep : (Instr.firStep 161025#32).wf = false ∧ (Instr.firStep 161024#32).wf = true := by decide
theorem test_wf_pcmNarrow_infinity : (Instr.pcmNarrow 0x7F800000#32).wf = false := by decide
theorem test_wf_pcmNarrow_nan : (Instr.pcmNarrow 0xFFC00000#32).wf = false := by decide
theorem test_wf_pcmNarrow_largest : (Instr.pcmNarrow 0x7F7FFFFF#32).wf = true := by decide

/-! ### The datapath -/

/-- The weights `W_EX` of `95_test_vectors.md`. -/
def wEx (i : Nat) : Word16 := BitVec.ofNat 16 (min i (63 - i) + 1)

/-- V1, V2, V4, V5, V6. -/
theorem test_sinc_ends : sincSum wEx [0#16, 0#16, 0#16, 0#16] = 0#32
    ∧ sincSum wEx [0xFFFF#16, 0xFFFF#16, 0xFFFF#16, 0xFFFF#16] = 1056#32
    ∧ sincSum wEx [0x8000#16, 0#16, 0#16, 0#16] = 16#32 ∧ sincSum wEx [0#16, 0#16, 0#16, 0x8000#16] = 1#32
    ∧ sincSum wEx [0#16, 0#16, 0#16, 0x0001#16] = 16#32 := by decide +kernel

/-- V16, V17, V18, V19. -/
theorem test_sinc_patterns : sincSum wEx [0x1234#16, 0x5678#16, 0x9ABC#16, 0xDEF0#16] = 523#32
    ∧ sincSum wEx [0xEDCB#16, 0xA987#16, 0x6543#16, 0x210F#16] = 533#32
    ∧ sincSum wEx [0x0F7B#16, 0x3D59#16, 0x1E6A#16, 0x2C48#16] = 523#32
    ∧ sincSum wEx [0xFF00#16, 0#16, 0#16, 0x00FF#16] = 200#32 := by decide +kernel

/-- R121: the words are shifted out. -/
theorem test_sinc_residue :
    sincResidue wEx [0xFFFF#16, 0x8000#16, 0x1234#16, 1#16] = [0#16, 0#16, 0#16, 0#16] := by decide +kernel

/-- The outputs of the filter with taps `h` on a list of inputs, from the zero delay line. -/
def firRun (h : List F32) : List F32 → List Nat → List F32
  | _, [] => []
  | d, x :: xs => firEval h (firShift h.length (f32OfNat x) d) :: firRun h (firShift h.length (f32OfNat x) d) xs

/-- V21 with `H_EX`: 1.0, 4.0, 7.0, 8.0. -/
theorem test_fir_dc : firRun [0x3E800000#32, 0x3F000000#32, 0x3E800000#32] [0#32, 0#32, 0#32] [4, 8, 8, 8]
    = [0x3F800000#32, 0x40800000#32, 0x40E00000#32, 0x41000000#32] := by decide +kernel

/-- V28 with `H_DEC`: binary32 rounding, products and sums apart. -/
theorem test_fir_rounding : firRun [0x3DCCCCCD#32, 0x3E4CCCCD#32, 0x3DCCCCCD#32] [0#32, 0#32, 0#32] [3, 3, 3, 3]
    = [0x3E99999A#32, 0x3F666667#32, 0x3F99999A#32, 0x3F99999A#32] := by decide +kernel

/-- V25 with `H_NEG`, narrowed: -2, 12, -2, 0. -/
theorem test_fir_negative :
    (firRun [0xBE800000#32, 0x3FC00000#32, 0xBE800000#32] [0#32, 0#32, 0#32] [8, 0, 0, 0]).map pcmNarrow
      = [0xFFFE#16, 0x000C#16, 0xFFFE#16, 0x0000#16] := by decide +kernel

/-- V26: saturation on both sides. -/
theorem test_fir_saturates :
    (firRun [0xBE800000#32, 0x3FC00000#32, 0xBE800000#32] [0#32, 0#32, 0#32] [100000, 100000, 100000]).map pcmNarrow
      = [0x9E58#16, 0x7FFF#16, 0x7FFF#16] := by decide +kernel

/-- V31: 7.0, 0.75, -0.0, -1.5, 32767.9, 32768.0, 125000.0. -/
theorem test_narrow : [0x40E00000#32, 0x3F400000#32, 0x80000000#32, 0xBFC00000#32, 0x46FFFFCD#32, 0x47000000#32,
      0x47F42400#32].map pcmNarrow
    = [0x0007#16, 0x0000#16, 0x0000#16, 0xFFFF#16, 0x7FFF#16, 0x7FFF#16, 0x7FFF#16] := by decide +kernel

/-- V31: -2.0, -32768.5, -32769.0, -40000.0. -/
theorem test_narrow_negative : [0xC0000000#32, 0xC7000080#32, 0xC7000100#32, 0xC71C4000#32].map pcmNarrow
    = [0xFFFE#16, 0x8000#16, 0x8000#16, 0x8000#16] := by decide +kernel

/-- R127: 161024 is exactly representable: 1.22848510742... × 2^17. -/
theorem test_convert : f32OfNat 161024 = 0x481D4000#32 ∧ f32OfNat 1056 = 0x44840000#32 := by decide +kernel

/-! ### One step of each instruction -/

/-- The block right after a successful CONFIGURE from reset, with every word of the buffer written. -/
def configured : State :=
  { State.reset with st := .configured, armed := true, written := #v[true, true, true, true, true, true, true, true] }

/-- The first address of a page of 4096 bytes. -/
@[irreducible] def pageAt (n : Nat) : Word := BitVec.ofNat 32 (n * 4096)

theorem pageAt_toNat (n : Nat) (h : n < 2 ^ 20) : (pageAt n).toNat = n * 4096 := by
  rw [pageAt, BitVec.toNat_ofNat]
  omega

theorem pageAt_even (n : Nat) (h : n < 2 ^ 20) : (pageAt n).toNat % 2 = 0 := by
  rw [pageAt_toNat n h]
  omega

theorem pageAt_room (n : Nat) (h : n < 2 ^ 20) : (pageAt n).toNat + 2 * 2 ≤ 2 ^ 32 := by
  rw [pageAt_toNat n h]
  omega

/-- The page that every platform's memory accepts (log 10). -/
abbrev page : Word := pageAt Config.ramPage.val

/-- A capture of two samples in that page. -/
def capturing : State := { configured with st := .capturing, cb := 0x42#32, destAddr := page, destLen := 2#32 }

/-- What a field of the next state is, if there is a next state. -/
def after {α : Type} (o : Answer) (f : State → α) : Option α :=
  match o with
  | .next s => some (f s)
  | .fault _ => none
  | .refused _ => none

/-- V80: CONFIGURE. -/
theorem test_configure : after (exec .configure { State.reset with arg0 := Config.someRate }) State.statusWord
    = some 0x00020001#32 := by
  simp only [exec, execConfigure, State.configureResult, State.reset, rateOk_someRate]
  decide

/-- V82: the binding answers ARM_FAIL. -/
theorem test_configure_armFail :
    after (exec .configure { State.reset with arg0 := Config.someRate, binding := .armFail }) State.statusWord
      = some 0x00000510#32 := by
  simp only [exec, execConfigure, State.configureResult, State.reset, rateOk_someRate]
  decide

/-- V60: START arms. -/
theorem test_start : after (exec .start { configured with arg0 := 0x20000000#32, arg1 := 2#32, arg2 := 0x42#32 })
    (fun s => (s.statusWord, s.destAddr, s.destLen, s.cursor, s.cb))
    = some (0x00020006#32, 0x20000000#32, 2#32, 0#32, 0x42#32) := by decide

/-- V63, V66, V68: a zero length at an odd address; ranges that end at and past 2^32. -/
theorem test_start_ranges :
    after (exec .start { configured with arg0 := 0x1001#32, arg1 := 0#32, arg2 := 0x77#32 })
      (fun s => (s.statusWord, s.submitted)) = some (0x00020001#32, [⟨0x77#32, 0x1001#32⟩])
    ∧ after (exec .start { configured with arg0 := 0xFFFFFFF0#32, arg1 := 8#32, arg2 := 0x78#32 }) State.statusWord
      = some 0x00020006#32
    ∧ after (exec .start { configured with arg0 := 2#32, arg1 := 0x80000000#32, arg2 := 0x78#32 }) State.statusWord
      = some 0x00020051#32 := by decide

/-- V89, V90: REGISTER_CALLBACK. -/
theorem test_registerCallback :
    after (exec .registerCallback configured) State.statusWord = some 0x00020031#32
    ∧ after (exec .registerCallback { configured with st := .capturing, cb := 0x42#32, arg0 := 0x99#32 }) (·.cb)
      = some 0x99#32 := by decide

/-- V76: CANCEL keeps the cursor and submits nothing. -/
theorem test_cancel :
    after (exec .cancel { configured with st := .capturing, cursor := 1#32, destLen := 2#32 })
      (fun s => (s.statusWord, s.cursor, s.submitted)) = some (0x00020001#32, 1#32, []) := by decide

/-- V92: DEINIT clears the fault and the registers, and keeps ARG0. -/
theorem test_deinit :
    after (exec .deinit { State.reset with
        st := .stopped, fault := true, faultCause := .overrunDetected, faultHalf := .second, arg0 := 5#32, cb := 7#32 })
      (fun s => (s.statusWord, s.cb, s.arg0)) = some (0#32, 0#32, 5#32) := by decide

/-- V95: an illegal word. -/
theorem test_illegalCmd : after (exec (decodeCommand 0#32) configured) State.statusWord = some 0x00020061#32 := by decide

/-- V41, V45: EVT_HALF, and EVT_HALF again. -/
theorem test_evtHalf : after (exec .evtHalf configured) State.statusWord = some 0x00560001#32
    ∧ after (exec .evtHalf { configured with own0 := true, pend0 := true, nextEvt := .second }) State.statusWord
      = some 0x0040400B#32 := by decide

/-- V43, V44: EVT_FULL in its turn, and as the first event. -/
theorem test_evtFull :
    after (exec .evtFull { configured with nextEvt := .second, nextProc := .second }) State.statusWord
      = some 0x00AA0001#32
    ∧ after (exec .evtFull configured) State.statusWord = some 0x0001400B#32 := by decide

/-- V48. -/
theorem test_evtErrOverrun : after (exec .evtErrOverrun configured) State.statusWord = some 0x0000100B#32 := by decide

/-- V47. -/
theorem test_evtErrPeripheral : after (exec .evtErrPeripheral configured) State.statusWord = some 0x0000200B#32 := by
  decide

/-- V49, V50: reserved events. -/
theorem test_evtReserved :
    after (exec .evtReserved0 configured) State.statusWord = some 0x0000500B#32
    ∧ after (exec .evtReserved5 configured) State.statusWord = some 0x0000500B#32
    ∧ after (exec (.evtReserved67 1#1) configured) State.statusWord = some 0x0000500B#32
    ∧ after (exec (.evtReserved8F 1#3) configured) State.statusWord = some 0x0000500B#32 := by decide

/-- V40, V46: a stored word, and an overrun. -/
theorem test_pdmWr :
    after (exec (.pdmWr 2#3 0xBEEF#16) { configured with written := State.reset.written })
      (fun s => (s.buf[2], s.written[2], s.statusWord)) = some (0xBEEF#16, true, 0x00020001#32)
    ∧ after (exec (.pdmWr 4#3 0xFFFF#16) { configured with own1 := true, pend1 := true, nextProc := .second })
      (fun s => (s.buf[4], s.statusWord)) = some (0#16, 0x0081300B#32) := by decide

/-- V42: the sequencer's step on half 0, of zero words (V1). -/
theorem test_seqProcess :
    after (exec .seqProcess { configured with own0 := true, pend0 := true, nextEvt := .second })
      (fun s => (s.statusWord, s.lastSinc, s.written[0], s.written[4]))
      = some (0x00C20001#32, 0#32, false, true) := by decide

/-- V53, V54: an unwritten half, and a turn that is not enabled. -/
theorem test_seqProcess_unwritten :
    exec .seqProcess { configured with
        own1 := true, pend1 := true, nextProc := .second
        written := #v[true, true, true, true, false, false, false, false] } = .fault (.unwrittenBufferRead 4)
    ∧ exec .seqProcess configured = .next configured := ⟨rfl, rfl⟩

/-- R120, R121: the half is consumed. -/
theorem test_sincDecimate :
    after (exec (.sincDecimate .second) { configured with buf := #v[9#16, 9#16, 9#16, 9#16, 0#16, 0#16, 0#16, 0#16] })
      (fun s => (s.ret, s.buf[0], s.buf[4])) = some (0#32, 9#16, 0#16) := by decide

/-- The first sample of a capture in the page goes to two bytes the memory accepts. -/
theorem fits_of {s : State} (h : s.destAddr = page) (hc : s.cursor = 0#32) : sampleFits s.sampleAddr = true := by
  have e : s.sampleAddr = Config.ramPage.val * 4096 + 0 := by
    rw [State.sampleAddr, h, hc, pageAt_toNat _ Config.ramPage.isLt, BitVec.toNat_zero]
  rw [sampleFits, e, memAccepts_ramPage (by omega), Nat.add_assoc, memAccepts_ramPage (by omega)]
  rfl

/-- V74, V75: the sample goes to memory and the cursor steps; the last sample completes the capture. -/
theorem test_onSample :
    exec (.onSample 0x0318#16) capturing = .next (capturing.storeSample 0x0318#16)
    ∧ (capturing.storeSample 0x0318#16).cursor = 1#32
    ∧ let s : State := { capturing with destLen := 1#32 }
      exec (.onSample 0x0318#16) s = .next (s.storeSample 0x0318#16).endCapture := by
  have h : sampleFits capturing.sampleAddr = true := fits_of rfl rfl
  have h' : sampleFits ({ capturing with destLen := 1#32 } : State).sampleAddr = true := fits_of rfl rfl
  rw [sampleFits] at h h'
  simp only [exec, execOnSample, deliverSample, h, h', if_true]
  exact ⟨rfl, rfl, rfl⟩

/-- V74: the bytes of the sample 0x0318 at 0x20000002. -/
theorem test_writeSample :
    Memory.writeSample [] 0x20000002 0x0318#16 = [(0x20000002, 0x18#8), (0x20000003, 0x03#8)]
    ∧ Memory.readSample [(0x20000002, 0x18#8), (0x20000003, 0x03#8)] 0x20000002 = some 0x0318#16 := by decide

/-- R185. -/
theorem test_complete :
    after (exec .complete { configured with st := .capturing, cb := 0x42#32, destAddr := 0x20000000#32, cursor := 2#32 })
      (fun s => (s.statusWord, s.cursor, s.submitted)) = some (0x00020001#32, 0#32, [⟨0x42#32, 0x20000000#32⟩]) := by
  decide

/-- V105, V101, V104: the register window. -/
theorem test_registers :
    after (step { State.reset with inputs := [.regWrite 0x08#6 .w32 0x1234#32] }) (·.arg1) = some 0x1234#32
    ∧ after (step { State.reset with arg1 := 0x1234#32, inputs := [.regRead 0x08#6 .w32] }) (·.busData) = some 0x1234#32
    ∧ after (step { State.reset with inputs := [.regRead 0x02#6 .w32] }) (·.busData) = none := by decide

/-- V102: a write to STATUS is ignored. -/
theorem test_status_read_only :
    after (step { configured with inputs := [.regWrite 0x10#6 .w32 0xFFFFFFFF#32] }) State.statusWord
      = some 0x00020001#32 := by decide

/-- V107: a reset keeps SUBMITTED. -/
theorem test_reset :
    after (step { configured with
        st := .capturing, submitted := [⟨1#32, 2#32⟩], arg0 := 9#32, inputs := [.resetAssert] })
      (fun s => (s.statusWord, s.arg0, s.submitted)) = some (0#32, 0#32, [⟨1#32, 2#32⟩]) := by decide

/-- The word placed for the fetch is the one the next step runs. -/
theorem test_withFetchWord :
    after (step (State.reset.withFetchWord 32 0x00000002)) State.statusWord = some 0x00000040#32
    ∧ after (step (State.reset.withFetchWord 8 0x3)) State.statusWord = some 0#32
    ∧ after (step (configured.withFetchWord 8 0x3)) State.statusWord = some 0x0000100B#32
    ∧ after (step (configured.withFetchWord 24 0x2BEEF)) (·.buf[2]) = some 0xBEEF#16 := by decide

/-! ### States that meet the hypotheses of the statements

One theorem a statement, named after it, with one state for each clause, at boundary values where a clause has a range. -/

/-- Half 0 pending in the armed block, with the given inputs to come. -/
def pending (l : List Input) : State := { configured with own0 := true, pend0 := true, nextEvt := .second, inputs := l }

/-- The block stopped by a fault. -/
def stopped : State := { State.reset with st := .stopped, fault := true, faultCause := .badEvent }

/-- A capture whose next sample would go to 2^32, where no byte exists. -/
def pastTheEnd : State :=
  { capturing with own0 := true, pend0 := true, destAddr := 0xFFFFFFFE#32, cursor := 1#32 }

theorem pastTheEnd_refused : sampleFits pastTheEnd.sampleAddr = false := by
  have h : pastTheEnd.sampleAddr = 2 ^ 32 := by decide
  rw [h, sampleFits, memAccepts]
  simp

/-- The invariant of an armed state with a pending half. -/
theorem pending_inv (l : List Input) : StateInv (pending l) where
  cursor_le := by simp [pending, configured, State.reset]
  delay_length := by simp [pending, configured, State.reset]
  own_eq_pend := by intro h; cases h <;> rfl
  pend_order := by intro h; rfl
  event_order := by intro h; rfl
  armed_iff := by simp [pending, configured]
  fault_iff := by simp [pending, configured, State.reset]
  cause_iff := by simp [pending, configured, State.reset]
  half_of_no_fault := by intro h; rfl
  capture_ok := by simp [pending, configured]
  quiet := by simp [pending, configured]
  mem_wf := rfl
  reset_held := by intro h; cases h
  sinc_le := by simp [pending, configured, State.reset]
  delay_range := by
    intro x hx
    exact ⟨0, by omega, by rw [show f32OfNat 0 = 0#32 by decide]; exact List.eq_of_mem_replicate hx⟩
  queue_le := by simp [pending, configured, State.reset]

theorem witness_AssertingResetRestoresTheResetTable :
    ({ capturing with inputs := [.resetAssert, .sequencer] } : State).inputs = .resetAssert :: [.sequencer] := rfl

theorem witness_AssertedResetIgnoresInputs :
    let s : State := { State.reset with rst := true }
    s.rst = true
      ∧ ({ s with inputs := [.regWrite 0x00#6 .w32 1#32] } : State).inputs = .regWrite 0x00#6 .w32 1#32 :: []
      ∧ ({ s with inputs := [.regRead 0x3F#6 .w8] } : State).inputs = .regRead 0x3F#6 .w8 :: []
      ∧ ({ s with inputs := [.event 0xF#4] } : State).inputs = .event 0xF#4 :: []
      ∧ ({ s with inputs := [.pdmWrite 0x7FFFF#19] } : State).inputs = .pdmWrite 0x7FFFF#19 :: []
      ∧ ({ s with inputs := [.sequencer] } : State).inputs = .sequencer :: []
      ∧ ({ s with inputs := [.resetRelease] } : State).inputs = .resetRelease :: [] :=
  ⟨rfl, rfl, rfl, rfl, rfl, rfl, rfl⟩

theorem witness_EveryStepKeepsInvariant :
    StateInv (pending [.sequencer]) ∧ (∃ t, step (pending [.sequencer]) = .next t)
      ∧ StateInv (pending [.event 0x3#4]) ∧ ∃ t, step (pending [.event 0x3#4]) = .next t :=
  ⟨pending_inv _, ⟨_, rfl⟩, pending_inv _, ⟨_, rfl⟩⟩

theorem witness_ReachableStatesAreLegal :
    ∃ s, Reachable s ∧ s.arg0 = 7#32 :=
  ⟨_, .next (.boot [.regWrite 0x04#6 .w32 7#32] .ok) rfl, rfl⟩

theorem witness_StepRunsDecodedInstruction :
    let s : State := { State.reset with inputs := [.regWrite 0x00#6 .w32 0xFFFFFFFF#32] }
    s.inputs = .regWrite 0x00#6 .w32 0xFFFFFFFF#32 :: [] ∧ s.rst = false
      ∧ (Input.regWrite 0x00#6 .w32 0xFFFFFFFF#32).carried = some (.command, [0xFF#8, 0xFF#8, 0xFF#8, 0xFF#8])
      ∧ decodeBytes .command [0xFF#8, 0xFF#8, 0xFF#8, 0xFF#8] = .ok (.illegalCmd 0xFF#8 0xFFFFFF#24)
      ∧ State.reset.inputs = [] ∧ State.reset.rst = false := ⟨rfl, rfl, rfl, rfl, rfl, rfl⟩

theorem witness_DecodeInvertsEncode :
    (Instr.illegalCmd 0x01#8 0x800000#24).wf = true
      ∧ encode (.illegalCmd 0x01#8 0x800000#24) = some (.command, [0x01#8, 0x00#8, 0x00#8, 0x80#8])
      ∧ (Instr.pdmWr 7#3 0x1234#16).wf = true
      ∧ encode (.pdmWr 7#3 0x1234#16) = some (.pdmWrite, [0x34#8, 0x12#8, 0x07#8])
      ∧ (Instr.evtReserved8F 7#3).wf = true ∧ encode (.evtReserved8F 7#3) = some (.event, [0x0F#8])
      ∧ Instr.seqProcess.wf = true ∧ encode .seqProcess = some (.sequencer, []) := by decide

theorem witness_IllegalWordOnlyWritesResult : ∃ v w : Word, v = 0#32 ∧ w = 6#32
    ∧ (v ≠ 1#32 ∧ v ≠ 2#32 ∧ v ≠ 3#32 ∧ v ≠ 4#32 ∧ v ≠ 5#32)
    ∧ w ≠ 1#32 ∧ w ≠ 2#32 ∧ w ≠ 3#32 ∧ w ≠ 4#32 ∧ w ≠ 5#32 := ⟨_, _, rfl, rfl, by decide, by decide⟩

theorem witness_ConfigureArmsTheBlock :
    let s : State := { State.reset with arg0 := Config.someRate }
    s.st = .uninitialized ∧ rateOk s.arg0 = true ∧ s.binding = .ok := ⟨rfl, rateOk_someRate, rfl⟩

theorem witness_ConfigureFailuresWriteOnlyTheResult :
    configured.st ≠ .uninitialized ∧ stopped.st ≠ .uninitialized
      ∧ let s : State := { State.reset with arg0 := Config.someRate, binding := .clockFail }
        s.st = .uninitialized ∧ (rateOk s.arg0 = false ∨ s.binding ≠ .ok) :=
  ⟨by decide, by decide, rfl, .inr (by decide)⟩

theorem witness_RegisterCallbackReplacesTheHandler :
    State.reset.st = .uninitialized ∧ (stopped.st ≠ .uninitialized ∧ stopped.arg0 = 0#32)
      ∧ let s : State := { configured with arg0 := 1#32 }
        s.st ≠ .uninitialized ∧ s.arg0 ≠ 0#32 := by decide

theorem witness_StartFollowsItsChecks :
    let go (a0 a1 a2 : Word) : State := { configured with arg0 := a0, arg1 := a1, arg2 := a2 }
    (stopped.st = .uninitialized ∨ stopped.st = .stopped) ∧ capturing.st = .capturing
      ∧ ((go 0 0 0).st = .configured ∧ (go 0 0 0).arg2 = 0#32)
      ∧ ((go 1 0 1).st = .configured ∧ (go 1 0 1).arg2 ≠ 0#32 ∧ (go 1 0 1).arg1 = 0#32)
      ∧ ((go 1 1 1).st = .configured ∧ (go 1 1 1).arg2 ≠ 0#32 ∧ (go 1 1 1).arg1 ≠ 0#32
        ∧ (go 1 1 1).arg0.toNat % 2 = 1)
      ∧ ((go 2 0x80000000 1).st = .configured ∧ (go 2 0x80000000 1).arg2 ≠ 0#32 ∧ (go 2 0x80000000 1).arg1 ≠ 0#32
        ∧ 2 ^ 32 < (go 2 0x80000000 1).arg0.toNat + 2 * (go 2 0x80000000 1).arg1.toNat)
      ∧ ((go 0 0x80000000 1).st = .configured ∧ (go 0 0x80000000 1).arg2 ≠ 0#32 ∧ (go 0 0x80000000 1).arg1 ≠ 0#32
        ∧ (go 0 0x80000000 1).arg0.toNat % 2 = 0
        ∧ (go 0 0x80000000 1).arg0.toNat + 2 * (go 0 0x80000000 1).arg1.toNat ≤ 2 ^ 32) := by decide

theorem witness_CancelEndsACaptureSilently : capturing.st = .capturing ∧ configured.st ≠ .capturing := by decide

theorem witness_HalfEventsAlternate :
    State.reset.armed = false
      ∧ (configured.armed = true ∧ configured.nextEvt = .first ∧ configured.own0 = false)
      ∧ (let s : State := { configured with own0 := true }
         s.armed = true ∧ s.nextEvt = .first ∧ s.own0 = true)
      ∧ ((pending []).armed = true ∧ (pending []).nextEvt = .second ∧ (pending []).own1 = false)
      ∧ let s : State := { pending [] with own1 := true }
        s.armed = true ∧ s.nextEvt = .second ∧ s.own1 = true := by decide

theorem witness_PdmWriteFillsTheProducersHalf :
    State.reset.armed = false
      ∧ ((pending []).armed = true ∧ (pending []).own (Half.ofBit ((4#3).extractLsb' 2 1)) = false)
      ∧ (pending []).armed = true ∧ (pending []).own (Half.ofBit ((3#3).extractLsb' 2 1)) = true := by decide

theorem witness_ErrorEventsStopTheBlock : configured.armed = true ∧ stopped.armed = false := by decide

theorem witness_ReservedEventsRaiseBadEvent :
    ((0x0#4).toNat = 0 ∨ 5 ≤ (0x0#4).toNat) ∧ ((0x5#4).toNat = 0 ∨ 5 ≤ (0x5#4).toNat)
      ∧ ((0xF#4).toNat = 0 ∨ 5 ≤ (0xF#4).toNat) ∧ configured.armed = true ∧ stopped.armed = false := by decide

theorem witness_DisarmedBlockIgnoresTheProducer :
    isProducer (.pdmWr 0#3 5#16) = true ∧ isProducer (.evtReserved8F 7#3) = true ∧ stopped.armed = false := by decide

theorem witness_FaultEntryHasNoOtherEffect :
    isProducer (.pdmWr 3#3 0#16) = true ∧ (pending []).fault = false
      ∧ ∃ t, exec (.pdmWr 3#3 0#16) (pending []) = .next t ∧ t.fault = true := ⟨rfl, rfl, _, rfl, rfl⟩

theorem witness_OnlyProducerInputsRaiseFaults :
    isProducer .cancel = false ∧ ∃ t, exec .cancel stopped = .next t ∧ t.fault = true := ⟨rfl, _, rfl, rfl⟩

theorem witness_ProducerInputsKeepHostState :
    isProducer .evtFull = true ∧ ∃ t, exec .evtFull (pending []) = .next t := ⟨rfl, _, rfl⟩

theorem witness_DisabledSequencerTurnChangesNothing :
    stopped.armed = false ∧ configured.pend configured.nextProc = false := by decide

theorem witness_SequencerProcessesTheNextHalf :
    (pending []).armed = true ∧ (pending []).pend (pending []).nextProc = true
      ∧ halfWritten (pending []) (pending []).nextProc = true ∧ (pending []).st ≠ .capturing := by decide

theorem witness_SequencerDeliversInACapture :
    let s : State := { capturing with own0 := true, pend0 := true }
    let r : State := { s with destLen := 1#32 }
    (s.armed = true ∧ s.pend s.nextProc = true ∧ halfWritten s s.nextProc = true ∧ s.st = .capturing
        ∧ sampleFits s.sampleAddr = true ∧ s.cursor + 1#32 ≠ s.destLen)
      ∧ r.armed = true ∧ r.pend r.nextProc = true ∧ halfWritten r r.nextProc = true ∧ r.st = .capturing
        ∧ sampleFits r.sampleAddr = true ∧ r.cursor + 1#32 = r.destLen :=
  ⟨⟨rfl, rfl, rfl, rfl, fits_of rfl rfl, by decide⟩, rfl, rfl, rfl, rfl, fits_of rfl rfl, by decide⟩

theorem witness_SequencerStopsOnBrokenDuties :
    (let s : State := { pending [] with written := #v[true, true, true, false, true, true, true, true] }
     s.armed = true ∧ s.pend s.nextProc = true ∧ halfWritten s s.nextProc = false)
      ∧ pastTheEnd.armed = true ∧ pastTheEnd.pend pastTheEnd.nextProc = true
        ∧ halfWritten pastTheEnd pastTheEnd.nextProc = true ∧ pastTheEnd.st = .capturing
        ∧ sampleFits pastTheEnd.sampleAddr = false :=
  ⟨⟨rfl, rfl, rfl⟩, rfl, rfl, rfl, rfl, pastTheEnd_refused⟩

theorem witness_OnSampleStoresAndCompletes :
    sampleFits (pastTheEnd.destAddr.toNat + 2 * pastTheEnd.cursor.toNat) = false
      ∧ (sampleFits (capturing.destAddr.toNat + 2 * capturing.cursor.toNat) = true
        ∧ capturing.cursor + 1#32 ≠ capturing.destLen)
      ∧ let s : State := { capturing with destLen := 1#32 }
        sampleFits (s.destAddr.toNat + 2 * s.cursor.toNat) = true ∧ s.cursor + 1#32 = s.destLen :=
  ⟨pastTheEnd_refused, ⟨fits_of (s := capturing) rfl rfl, by decide⟩, fits_of (s := { capturing with destLen := 1#32 }) rfl rfl, by decide⟩

theorem witness_CaptureOfLengthLIsComplete :
    let s : State := { configured with arg0 := page, arg1 := 2#32, arg2 := 0x42#32 }
    let ps : List Word16 := [0x0108#16, 0x0318#16]
    s.st = .configured ∧ s.arg2 ≠ 0#32 ∧ ps ≠ [] ∧ ps.length = s.arg1.toNat ∧ s.arg0.toNat % 2 = 0
      ∧ s.arg0.toNat + 2 * s.arg1.toNat ≤ 2 ^ 32
      ∧ ∀ k, k < 2 * ps.length → memAccepts (s.arg0.toNat + k) = true := by
  refine ⟨rfl, by decide, by decide, rfl, pageAt_even _ Config.ramPage.isLt, pageAt_room _ Config.ramPage.isLt, ?_⟩
  intro k hk
  show memAccepts (page.toNat + k) = true
  rw [pageAt_toNat _ Config.ramPage.isLt]
  exact memAccepts_ramPage (Nat.lt_of_lt_of_le hk (by decide))

theorem witness_SincDecimateSumsAndConsumes :
    halfWritten configured .second = true
      ∧ halfWritten { configured with written := #v[true, true, true, true, true, true, true, false] } .second = false := by
  decide

theorem witness_SincSumLaws :
    63 < 64 ∧ (0x8000000000000000#64) &&& (0x7FFFFFFFFFFFFFFF#64) = 0#64
      ∧ (0x8000000000000001#64) &&& BitVec.allOnes 64 = 0x8000000000000001#64 := by decide

theorem witness_FirStepShiftsAndSums : State.reset.delay.length = Config.firTaps ∧ 1 ≤ 1 := by simp [State.reset]

theorem witness_InputConversionIsExact : 0 ≤ 2 ^ 24 ∧ 2 ^ 24 ≤ 2 ^ 24 := by decide

/-- 1.0 + 2^-24 lies halfway between 1.0 and the next value; the largest value plus 0 is in range. -/
theorem witness_AdditionRoundsToNearestEven :
    f32Finite 0x3F800000#32 = true ∧ f32Finite 0x33800000#32 = true
      ∧ f32Finite (fadd 0x3F800000#32 0x33800000#32) = true ∧ f32Finite 0x3F800001#32 = true
      ∧ (f32Units (fadd 0x3F800000#32 0x33800000#32) - (f32Units 0x3F800000#32 + f32Units 0x33800000#32)).natAbs
        = (f32Units 0x3F800001#32 - (f32Units 0x3F800000#32 + f32Units 0x33800000#32)).natAbs
      ∧ f32Units 0x3F800001#32 ≠ f32Units (fadd 0x3F800000#32 0x33800000#32)
      ∧ f32Finite 0x7F7FFFFF#32 = true ∧ f32Finite 0#32 = true
      ∧ (f32Units 0x7F7FFFFF#32 + f32Units 0#32).natAbs ≤ (2 ^ 24 - 1) * 2 ^ 253 := by decide +kernel

/-- (1 + 2^-23) × 1.5 lies halfway between two values; the largest value times 1.0 is in range. -/
theorem witness_MultiplicationRoundsToNearestEven :
    f32Finite 0x3F800001#32 = true ∧ f32Finite 0x3FC00000#32 = true
      ∧ f32Finite (fmul 0x3F800001#32 0x3FC00000#32) = true ∧ f32Finite 0x3FC00001#32 = true
      ∧ (f32Units (fmul 0x3F800001#32 0x3FC00000#32) * 2 ^ 149 - f32Units 0x3F800001#32 * f32Units 0x3FC00000#32).natAbs
        = (f32Units 0x3FC00001#32 * 2 ^ 149 - f32Units 0x3F800001#32 * f32Units 0x3FC00000#32).natAbs
      ∧ f32Units 0x3FC00001#32 ≠ f32Units (fmul 0x3F800001#32 0x3FC00000#32)
      ∧ f32Finite 0x7F7FFFFF#32 = true ∧ f32Finite 0x3F800000#32 = true
      ∧ (f32Units 0x7F7FFFFF#32 * f32Units 0x3F800000#32).natAbs ≤ (2 ^ 24 - 1) * 2 ^ 402 := by decide +kernel

theorem witness_PcmNarrowTruncatesAndSaturates :
    f32Finite 0xFF7FFFFF#32 = true ∧ f32Finite 0x80000000#32 = true := by decide

theorem witness_TablesMeetTheirConstraints : 0 < 64 ∧ 63 < 64 ∧ 0 < Config.firTaps := by simp [Config.firTaps]

theorem witness_PipelineIgnoresHostState :
    let s := pending []
    let t : State := { pending [.sequencer] with arg0 := 5#32, cb := 9#32, rate := 7#32 }
    s.seqEnabled = true ∧ t.seqEnabled = true ∧ s.buf = t.buf ∧ s.delay = t.delay ∧ s.nextProc = t.nextProc
      ∧ (∃ s', exec .seqProcess s = .next s') ∧ ∃ t', exec .seqProcess t = .next t' :=
  ⟨rfl, rfl, rfl, rfl, rfl, ⟨_, rfl⟩, ⟨_, rfl⟩⟩

theorem witness_StateChangesOnlyByTheLifecycle :
    StateInv (pending [.event 0x3#4]) ∧ ∃ t, step (pending [.event 0x3#4]) = .next t
      ∧ t.st ≠ (pending [.event 0x3#4]).st :=
  ⟨pending_inv _, _, rfl, by decide⟩

theorem witness_ResultIsWrittenOnlyByCommands :
    (∃ t, step (pending [.sequencer]) = .next t)
      ∧ (∀ i, (pending [.sequencer]).nextInstr = some i → isCommand i = false)
      ∧ (pending [.sequencer]).resetNext = false := by
  refine ⟨⟨_, rfl⟩, ?_, rfl⟩
  intro i h
  have e : (pending [.sequencer]).nextInstr = some .seqProcess := rfl
  rw [e, Option.some.injEq] at h
  subst h
  rfl

theorem witness_SubmittedOnlyGrows :
    let s : State := { configured with arg2 := 1#32, inputs := [.regWrite 0x00#6 .w32 2#32] }
    ∃ t, step s = .next t ∧ t.submitted ≠ s.submitted := ⟨_, rfl, by decide⟩

theorem witness_MemoryIsWrittenOnlyBySamplesAndHost :
    (∃ t, step (pending [.sequencer]) = .next t)
      ∧ ∀ a v rest, (pending [.sequencer]).inputs ≠ .hostStore a v :: rest :=
  ⟨⟨_, rfl⟩, by intro a v rest h; cases h⟩

theorem witness_HalvesAreProcessedInAlternation :
    ∃ t, step (pending [.sequencer]) = .next t ∧ (pending [.sequencer]).nextInstr = some .seqProcess
      ∧ (pending [.sequencer]).seqEnabled = true ∧ t.nextProc ≠ (pending [.sequencer]).nextProc :=
  ⟨_, rfl, rfl, rfl, by decide⟩

theorem witness_HalvesAreExclusivelyOwned :
    let s := pending [.pdmWrite 0x4BEEF#19]
    StateInv s ∧ s.armed = true ∧ s.resetNext = false ∧ ∃ t, step s = .next t ∧ t.buf[4] ≠ s.buf[4] :=
  ⟨pending_inv _, rfl, rfl, _, rfl, by decide⟩

theorem witness_RegisterReadsReturnTheMap :
    let s (off : BitVec 6) : State := { State.reset with inputs := [.regRead off .w32] }
    (∀ off : BitVec 6, (s off).rst = false) ∧ (∀ off : BitVec 6, (s off).inputs = .regRead off .w32 :: [])
      ∧ (∀ off ∈ [0x00#6, 0x04#6, 0x08#6, 0x0C#6, 0x10#6, 0x14#6, 0x18#6, 0x1C#6, 0x20#6, 0x24#6, 0x28#6, 0x2C#6,
          0x30#6, 0x3C#6], off.toNat % 4 = 0)
      ∧ 0x30 ≤ (0x30#6).toNat ∧ 0x30 ≤ (0x3C#6).toNat :=
  ⟨fun _ => rfl, fun _ => rfl, by decide, by decide, by decide⟩

theorem witness_RegisterWritesReachOnlyTheOperands :
    let s (off : BitVec 6) : State := { State.reset with inputs := [.regWrite off .w32 1#32] }
    (∀ off : BitVec 6, (s off).rst = false) ∧ (∀ off : BitVec 6, (s off).inputs = .regWrite off .w32 1#32 :: [])
      ∧ (∀ off ∈ [0x04#6, 0x08#6, 0x0C#6, 0x10#6, 0x3C#6], off.toNat % 4 = 0)
      ∧ 0x10 ≤ (0x10#6).toNat ∧ 0x10 ≤ (0x3C#6).toNat :=
  ⟨fun _ => rfl, fun _ => rfl, by decide, by decide, by decide⟩

theorem witness_BadRegisterAccessesFault :
    let s : State := { State.reset with inputs := [.regWrite 0x00#6 .w16 1#32] }
    let r : State := { State.reset with inputs := [.regRead 0x3F#6 .w32] }
    (s.rst = false ∧ (AccessWidth.w16 ≠ .w32 ∨ (0x00#6).toNat % 4 ≠ 0) ∧ s.inputs = .regWrite 0x00#6 .w16 1#32 :: [])
      ∧ r.rst = false ∧ (AccessWidth.w32 ≠ .w32 ∨ (0x3F#6).toNat % 4 ≠ 0) ∧ r.inputs = .regRead 0x3F#6 .w32 :: [] :=
  ⟨⟨rfl, by decide, rfl⟩, rfl, by decide, rfl⟩

/-- The destination 4 to 7: its first and last byte, and the bytes just outside. -/
theorem witness_HostStoresRaceOnlyInTheArmedRange :
    let s (a : Word) : State :=
      { configured with st := .capturing, destAddr := 4#32, destLen := 2#32, inputs := [.hostStore a 0#8] }
    (∀ a : Word, (s a).inputs = .hostStore a 0#8 :: [] ∧ (s a).st = .capturing)
      ∧ (4 ≤ (4#32).toNat ∧ (4#32).toNat < 4 + 2 * 2) ∧ (4 ≤ (7#32).toNat ∧ (7#32).toNat < 4 + 2 * 2)
      ∧ (3#32).toNat < 4 ∧ 4 + 2 * 2 ≤ (8#32).toNat ∧ configured.st ≠ .capturing :=
  ⟨fun _ => ⟨rfl, rfl⟩, by simp, by simp, by simp, by simp, by decide⟩

theorem witness_SimultaneousProducerInputsAreOrdered :
    let s (write : Option (BitVec 19)) (codes : List (BitVec 4)) : State :=
      { configured with inputs := [.together write codes] }
    (∀ write codes, (s write codes).inputs = .together write codes :: [])
      ∧ (0x2#4 = 0x1#4 ∨ 0x2#4 = 0x2#4) ∧ (0x3#4 ≠ 0x1#4 ∧ 0x3#4 ≠ 0x2#4) ∧ (0x0#4 ≠ 0x1#4 ∧ 0x0#4 ≠ 0x2#4)
      ∧ ∀ codes ∈ [[0x3#4], [0x2#4, 0x3#4], [0x3#4, 0x2#4]],
          codes = [0x3#4] ∨ codes = [0x2#4, 0x3#4] ∨ codes = [0x3#4, 0x2#4] :=
  ⟨fun _ _ => rfl, by decide, by decide, by decide, by decide⟩

/-- R156, R236: a write and, listed first, an error event that replaces the half event. -/
theorem test_together :
    after (step { configured with inputs := [.together (some 0x2BEEF#19) [0x4#4, 0x1#4]] }) (·.inputs)
      = some [.pdmWrite 0x2BEEF#19, .event 0x4#4] := by decide

theorem witness_QueueRunsRequestsOnceInOrder :
    let s : State := { State.reset with submitted := [⟨1#32, 2#32⟩], inputs := [.runQueue] }
    let r : State := { State.reset with submitted := [⟨1#32, 2#32⟩], queueRun := 1, inputs := [.runQueue] }
    (s.inputs = .runQueue :: [] ∧ s.queueRun < s.submitted.length)
      ∧ r.inputs = .runQueue :: [] ∧ r.submitted.length ≤ r.queueRun :=
  ⟨⟨rfl, by decide⟩, rfl, by decide⟩

end Sys2Proof.Tests
end

/-! PROOFS for `00_scope.md`: binary32 rounding (O39, O40) and the tables' constraints (O42). The two operations round
one exact integer, so both statements are `f32Round_isNearestEven`: a rounded quotient is the nearest multiple of the
rounding step (`roundDiv_nearest_multiple`), and a finite value that is no multiple of it is too small to be nearer. -/

namespace Sys2Proof.Machine

/-! ### The fields of a pattern -/

theorem f32Exp_lt (x : F32) : f32Exp x < 256 := (x.extractLsb' 23 8).isLt

theorem f32Frac_lt (x : F32) : f32Frac x < 2 ^ 23 := (x.extractLsb' 0 23).isLt

theorem f32Finite_iff (x : F32) : f32Finite x = true ↔ f32Exp x < 255 := by
  have hlt := f32Exp_lt x
  rw [f32Finite, bne_iff_ne, ne_eq, ← BitVec.toNat_inj]
  change ¬f32Exp x = 255 ↔ _
  omega

theorem f32IsNaN_of_finite {x : F32} (h : f32Finite x = true) : f32IsNaN x = false := by
  have := (f32Finite_iff x).mp h
  simp [f32IsNaN, this.ne]

theorem f32IsInf_of_finite {x : F32} (h : f32Finite x = true) : f32IsInf x = false := by
  have := (f32Finite_iff x).mp h
  simp [f32IsInf, this.ne]

section Pack

variable (neg : Bool) {b : Nat} (hb : b < 2 ^ 31)
include hb

theorem toNat_f32Pack : (f32Pack neg b).toNat = (if neg then 2 ^ 31 else 0) + b := by
  rw [f32Pack, BitVec.toNat_ofNat]
  split <;> omega

theorem f32Neg_pack : f32Neg (f32Pack neg b) = neg := by
  rw [f32Neg, BitVec.getLsbD, toNat_f32Pack neg hb]
  have hbit : b.testBit 31 = false := Nat.testBit_lt_two_pow hb
  cases neg
  · simpa using hbit
  · simp only [if_true, Nat.testBit_two_pow_add_eq, hbit, Bool.not_false]

theorem f32Exp_pack : f32Exp (f32Pack neg b) = b / 2 ^ 23 := by
  simp only [f32Exp, BitVec.extractLsb'_toNat, toNat_f32Pack neg hb, Nat.shiftRight_eq_div_pow]
  split <;> omega

theorem f32Frac_pack : f32Frac (f32Pack neg b) = b % 2 ^ 23 := by
  simp only [f32Frac, BitVec.extractLsb'_toNat, toNat_f32Pack neg hb, Nat.shiftRight_zero]
  split <;> omega

theorem lastBit_pack (h : b % 2 = 0) : (f32Pack neg b).getLsbD 0 = false := by
  rw [BitVec.getLsbD, toNat_f32Pack neg hb, Nat.testBit_zero, decide_eq_false_iff_not]
  split <;> omega

theorem f32Finite_pack_iff : f32Finite (f32Pack neg b) = true ↔ b < 0x7F800000 := by
  rw [f32Finite_iff, f32Exp_pack neg hb]
  omega

end Pack

/-! ### Magnitudes and signs -/

/-- Every magnitude is a significand of at most 24 bits times a power of two. -/
theorem f32Mag_eq_significand (x : F32) : ∃ c j, c < 2 ^ 24 ∧ f32Mag x = c * 2 ^ j := by
  have hfrac := f32Frac_lt x
  unfold f32Mag
  split
  · exact ⟨f32Frac x, 0, by omega, by simp⟩
  · exact ⟨2 ^ 23 + f32Frac x, f32Exp x - 1, by omega, rfl⟩

/-- A significand `q` added to `j` exponent steps stands for `q * 2^j`; the significand `2^24` carries into the
exponent. -/
theorem f32Mag_pack (neg : Bool) {q j : Nat} (hq : q ≤ 2 ^ 24) (hnorm : j = 0 ∨ 2 ^ 23 ≤ q)
    (hb : j * 2 ^ 23 + q < 2 ^ 31) : f32Mag (f32Pack neg (j * 2 ^ 23 + q)) = q * 2 ^ j := by
  rw [f32Mag, f32Exp_pack neg hb, f32Frac_pack neg hb]
  rcases lt_or_ge q (2 ^ 23) with hsub | hge
  · obtain rfl : j = 0 := by omega
    rw [Nat.zero_mul, Nat.zero_add, if_pos (Nat.div_eq_of_lt hsub), Nat.mod_eq_of_lt hsub, pow_zero, mul_one]
  · rcases hq.lt_or_eq with hlt | rfl
    · have hexp : (j * 2 ^ 23 + q) / 2 ^ 23 = j + 1 := by omega
      have hfrac : 2 ^ 23 + (j * 2 ^ 23 + q) % 2 ^ 23 = q := by omega
      rw [hexp, hfrac, if_neg (by omega), Nat.add_sub_cancel]
    · have hexp : (j * 2 ^ 23 + 2 ^ 24) / 2 ^ 23 = j + 2 := by omega
      have hfrac : (j * 2 ^ 23 + 2 ^ 24) % 2 ^ 23 = 0 := by omega
      rw [hexp, hfrac, if_neg (by omega), Nat.add_sub_assoc (by omega), pow_add]
      ring

/-- The integer of a sign and a magnitude. -/
def signedMag (neg : Bool) (m : Nat) : Int := if neg then -(m : Int) else m

theorem f32Units_eq_signedMag (x : F32) : f32Units x = signedMag (f32Neg x) (f32Mag x) := rfl

@[simp] theorem natAbs_signedMag (neg : Bool) (m : Nat) : (signedMag neg m).natAbs = m := by
  cases neg <;> simp [signedMag]

theorem natAbs_f32Units (x : F32) : (f32Units x).natAbs = f32Mag x := natAbs_signedMag _ _

theorem signedMag_mul (a b : Bool) (m n : Nat) :
    signedMag a m * signedMag b n = signedMag (a != b) (m * n) := by
  cases a <;> cases b <;> simp [signedMag]

theorem natAbs_signedMag_sub (neg : Bool) (m n : Nat) :
    (signedMag neg m - signedMag neg n).natAbs = (m - n : Int).natAbs := by
  cases neg
  · rfl
  · simp only [signedMag, if_true]
    omega

/-- Distances from a negative value are distances of the negated values. -/
theorem exists_unsigned (neg : Bool) (u : Int) : ∃ v : Int, v.natAbs = u.natAbs
    ∧ ∀ e n : Nat, (u * 2 ^ e - signedMag neg n).natAbs = (v * 2 ^ e - n).natAbs := by
  cases neg
  · exact ⟨u, rfl, fun _ _ => rfl⟩
  · refine ⟨-u, Int.natAbs_neg u, fun e n => ?_⟩
    simp only [signedMag, if_true, neg_mul]
    omega

theorem signedMag_not (neg : Bool) (m : Nat) : signedMag (!neg) m = -signedMag neg m := by
  cases neg <;> simp [signedMag]

theorem signedMag_add (neg : Bool) (m n : Nat) : signedMag neg (m + n) = signedMag neg m + signedMag neg n := by
  cases neg
  · simp [signedMag]
  · simp [signedMag, Int.add_comm]

theorem signedMag_sub (neg : Bool) {m n : Nat} (h : n ≤ m) :
    signedMag neg (m - n) = signedMag neg m - signedMag neg n := by
  rw [eq_sub_iff_add_eq, ← signedMag_add, Nat.sub_add_cancel h]

/-- `f32Sum` is the exact sum: magnitudes add under one sign, and under two signs the smaller one is taken off. -/
theorem signedMag_f32Sum (x y : F32) :
    signedMag (f32Sum x y).1 (f32Sum x y).2 = f32Units x + f32Units y := by
  simp only [f32Units_eq_signedMag]
  unfold f32Sum
  split_ifs with hsign heq hlt
  · rw [← hsign, signedMag_add]
  all_goals have hopp : f32Neg y = !f32Neg x := Bool.eq_not_of_ne (Ne.symm hsign)
  · rw [hopp, heq, signedMag_not, add_neg_cancel]
    rfl
  · simp only [hopp, signedMag_sub _ hlt.le, signedMag_not, sub_eq_add_neg]
  · simp only [hopp, signedMag_sub _ (Nat.le_of_not_lt hlt), signedMag_not]
    ring

/-! ### The rounded quotient -/

theorem roundDiv_le {m k c : Nat} (h : m ≤ c * 2 ^ k) : roundDiv m k ≤ c := by
  have hpos : 0 < 2 ^ k := Nat.two_pow_pos k
  have hdiv : m / 2 ^ k ≤ c := Nat.div_le_of_le_mul (by rwa [Nat.mul_comm])
  have hsplit := Nat.div_add_mod' m (2 ^ k)
  rcases hdiv.lt_or_eq with hlt | heq
  · simp only [roundDiv]
    split_ifs <;> omega
  · have hmod : m % 2 ^ k = 0 := by rw [heq] at hsplit; omega
    simp only [roundDiv, hmod]
    split_ifs <;> omega

theorem le_roundDiv {m k c : Nat} (h : c * 2 ^ k ≤ m) : c ≤ roundDiv m k := by
  have hdiv : c ≤ m / 2 ^ k := (Nat.le_div_iff_mul_le (Nat.two_pow_pos k)).mpr h
  simp only [roundDiv]
  split_ifs <;> omega

/-- The rounded quotient is off by at most half a step, and by exactly half a step only when it is even. -/
theorem roundDiv_within_half (m k : Nat) :
    2 * (roundDiv m k * 2 ^ k - m : Int).natAbs ≤ 2 ^ k
    ∧ (2 * (roundDiv m k * 2 ^ k - m : Int).natAbs = 2 ^ k → roundDiv m k % 2 = 0) := by
  have hsplit : ((m / 2 ^ k : Nat) : Int) * 2 ^ k + (m % 2 ^ k : Nat) = m := by
    exact_mod_cast Nat.div_add_mod' m (2 ^ k)
  have hmod : m % 2 ^ k < 2 ^ k := Nat.mod_lt m (Nat.two_pow_pos k)
  have hup : ((m / 2 ^ k + 1 : Nat) : Int) * 2 ^ k = (m / 2 ^ k : Nat) * 2 ^ k + (2 ^ k : Nat) := by
    push_cast
    ring
  simp only [roundDiv]
  split_ifs
  · rw [hup]; omega
  · rw [hup]; omega
  · omega

/-- No multiple of `2^k` is nearer to `m` than the rounded quotient's, and on a tie the quotient is even. -/
theorem roundDiv_nearest_multiple (m k : Nat) (c : Int) :
    (roundDiv m k * 2 ^ k - m : Int).natAbs ≤ (c * 2 ^ k - m : Int).natAbs
    ∧ ((roundDiv m k * 2 ^ k - m : Int).natAbs = (c * 2 ^ k - m : Int).natAbs →
        c ≠ roundDiv m k → roundDiv m k % 2 = 0) := by
  obtain ⟨hhalf, heven⟩ := roundDiv_within_half m k
  by_cases hc : c = roundDiv m k
  · exact ⟨by rw [hc], fun _ hne => absurd hc hne⟩
  · have hstep : 2 ^ k ≤ (c * 2 ^ k - roundDiv m k * 2 ^ k : Int).natAbs := by
      rw [← sub_mul, Int.natAbs_mul, Int.natAbs_pow]
      exact Nat.le_mul_of_pos_left _ (by omega)
    exact ⟨by omega, fun htie _ => heven (by omega)⟩

/-! ### Rounding to binary32 -/

theorem le_roundShift (m e : Nat) : e ≤ roundShift m e := Nat.le_max_right _ _

theorem roundShift_of_gt {m e : Nat} (h : e < roundShift m e) : 2 ^ 23 * 2 ^ roundShift m e ≤ m := by
  have hshift : roundShift m e = m.log2 - 23 := by unfold roundShift at *; omega
  have hlog : 23 + roundShift m e = m.log2 := by omega
  rw [← pow_add, hlog]
  exact Nat.log2_self_le (by rintro rfl; simp at hlog)

theorem lt_significand_mul_roundShift (m e : Nat) : m < 2 ^ 24 * 2 ^ roundShift m e := by
  have hle : m.log2 + 1 ≤ 24 + roundShift m e := by unfold roundShift; omega
  calc m < 2 ^ (m.log2 + 1) := Nat.lt_log2_self
    _ ≤ 2 ^ (24 + roundShift m e) := Nat.pow_le_pow_right (by omega) hle
    _ = _ := pow_add ..

/-- The rounded significand fits, and it is normalised unless the value is subnormal. -/
theorem roundDiv_roundShift_normalised (m e : Nat) :
    roundDiv m (roundShift m e) ≤ 2 ^ 24
    ∧ (roundShift m e - e = 0 ∨ 2 ^ 23 ≤ roundDiv m (roundShift m e)) := by
  refine ⟨roundDiv_le (lt_significand_mul_roundShift m e).le, ?_⟩
  rcases (le_roundShift m e).eq_or_lt with heq | hgt
  · exact .inl (by omega)
  · exact .inr (le_roundDiv (roundShift_of_gt hgt))

/-- The exponent and fraction fields of the rounded magnitude, before overflow is cut to infinity. -/
def roundBits (m e : Nat) : Nat := (roundShift m e - e) * 2 ^ 23 + roundDiv m (roundShift m e)

theorem f32Round_eq_pack (neg : Bool) (m e : Nat) :
    f32Round neg m e = f32Pack neg (min (roundBits m e) 0x7F800000) := by
  unfold f32Round
  split
  · next hm =>
    subst hm
    simp [roundBits, roundShift, roundDiv]
  · rfl

theorem f32Finite_round_iff (neg : Bool) (m e : Nat) :
    f32Finite (f32Round neg m e) = true ↔ roundBits m e < 0x7F800000 := by
  rw [f32Round_eq_pack, f32Finite_pack_iff neg (by omega)]
  omega

theorem f32Round_of_finite {neg : Bool} {m e : Nat} (h : f32Finite (f32Round neg m e) = true) :
    f32Round neg m e = f32Pack neg (roundBits m e) := by
  have hlt := (f32Finite_round_iff neg m e).mp h
  rw [f32Round_eq_pack, min_eq_left hlt.le]

/-- A finite rounding stands for its rounded quotient. -/
theorem f32Units_round {neg : Bool} {m e : Nat} (h : f32Finite (f32Round neg m e) = true) :
    f32Units (f32Round neg m e) * 2 ^ e = signedMag neg (roundDiv m (roundShift m e) * 2 ^ roundShift m e) := by
  have hlt := (f32Finite_round_iff neg m e).mp h
  obtain ⟨hq, hnorm⟩ := roundDiv_roundShift_normalised m e
  have hmag : f32Mag (f32Pack neg (roundBits m e)) = roundDiv m (roundShift m e) * 2 ^ (roundShift m e - e) :=
    f32Mag_pack neg hq hnorm (by unfold roundBits at hlt; omega)
  have hpow : (2 : Int) ^ roundShift m e = 2 ^ (roundShift m e - e) * 2 ^ e := by
    rw [← pow_add, Nat.sub_add_cancel (le_roundShift m e)]
  rw [f32Round_of_finite h, f32Units_eq_signedMag, hmag, f32Neg_pack neg (by omega)]
  cases neg <;> simp [signedMag, hpow, mul_assoc]

/-- A magnitude of at most the largest finite one rounds to a finite value. -/
theorem f32Finite_round_of_le (neg : Bool) {m e k : Nat} (hk : k = 253 + e) (h : m ≤ (2 ^ 24 - 1) * 2 ^ k) :
    f32Finite (f32Round neg m e) = true := by
  subst hk
  rw [f32Finite_round_iff]
  have hq := (roundDiv_roundShift_normalised m e).1
  have hshift : roundShift m e ≤ 253 + e := by
    by_contra! hgt
    have hlow := roundShift_of_gt (m := m) (e := e) (by omega)
    have hpow : 2 ^ (253 + e + 1) ≤ 2 ^ roundShift m e := Nat.pow_le_pow_right (by omega) hgt
    have hpos : 0 < 2 ^ (253 + e) := Nat.two_pow_pos _
    rw [pow_succ] at hpow
    omega
  unfold roundBits
  rcases hshift.eq_or_lt with htop | hbelow
  · have hqtop : roundDiv m (roundShift m e) ≤ 2 ^ 24 - 1 := roundDiv_le (by rwa [htop])
    omega
  · omega

/-- `00_scope.md` R18: among the finite values `r` is nearest to the exact value `v`, in units of 2^-(149 + e), and even
where another one is equally near. -/
def IsNearestEven (r : F32) (v : Int) (e : Nat) : Prop :=
  ∀ z : F32, f32Finite z = true →
    (f32Units r * 2 ^ e - v).natAbs ≤ (f32Units z * 2 ^ e - v).natAbs
    ∧ ((f32Units r * 2 ^ e - v).natAbs = (f32Units z * 2 ^ e - v).natAbs →
        f32Units z ≠ f32Units r → r.getLsbD 0 = false)

/-- Against a value of significand `c` and exponent `j`: where `2^(j+e)` is a multiple of the rounding step, the rounded
quotient is the nearest multiple of that step; otherwise the value lies below the binade of `m`, whose lower end is
a multiple of the step. -/
theorem roundDiv_nearest_value {m e : Nat} {v : Int} {c j : Nat} (hc : c < 2 ^ 24) (hv : v.natAbs = c * 2 ^ j) :
    (roundDiv m (roundShift m e) * 2 ^ roundShift m e - m : Int).natAbs ≤ (v * 2 ^ e - m).natAbs
    ∧ ((roundDiv m (roundShift m e) * 2 ^ roundShift m e - m : Int).natAbs = (v * 2 ^ e - m).natAbs →
        v * 2 ^ e ≠ roundDiv m (roundShift m e) * 2 ^ roundShift m e → roundDiv m (roundShift m e) % 2 = 0) := by
  rcases Nat.lt_or_ge (j + e) (roundShift m e) with hlow | hmult
  · have hbinade := roundShift_of_gt (m := m) (e := e) (by omega)
    have hnear := (roundDiv_nearest_multiple m (roundShift m e) (2 ^ 23)).1
    have hsmall : (v * 2 ^ e).natAbs < 2 ^ 23 * 2 ^ roundShift m e := by
      rw [Int.natAbs_mul, Int.natAbs_pow, hv, mul_assoc]
      calc c * (2 ^ j * 2 ^ e) < 2 ^ 24 * (2 ^ j * 2 ^ e) := by gcongr
        _ = 2 ^ 23 * 2 ^ (j + e + 1) := by ring
        _ ≤ 2 ^ 23 * 2 ^ roundShift m e := by gcongr <;> omega
    have hcast : ((2 ^ 23 * 2 ^ roundShift m e : Nat) : Int) = 2 ^ 23 * 2 ^ roundShift m e := by push_cast; rfl
    omega
  · obtain ⟨w, hw⟩ : (2 : Int) ^ roundShift m e ∣ v * 2 ^ e := by
      rw [← Int.natAbs_dvd_natAbs, Int.natAbs_mul, hv, Int.natAbs_pow, Int.natAbs_pow, mul_assoc]
      exact ((pow_dvd_pow 2 hmult).trans (pow_add 2 j e).dvd).mul_left c
    have hnear := roundDiv_nearest_multiple m (roundShift m e) w
    rw [hw, mul_comm _ w]
    exact ⟨hnear.1, fun htie hne => hnear.2 htie (by rintro rfl; exact hne rfl)⟩

theorem f32Round_isNearestEven {neg : Bool} {m e : Nat} (h : f32Finite (f32Round neg m e) = true) :
    IsNearestEven (f32Round neg m e) (signedMag neg m) e := by
  intro z _
  obtain ⟨c, j, hc, hz⟩ := f32Mag_eq_significand z
  obtain ⟨v, hv, hdist⟩ := exists_unsigned neg (f32Units z)
  obtain ⟨hnear, heven⟩ := roundDiv_nearest_value (m := m) (e := e) hc (by rw [hv, natAbs_f32Units, hz])
  have hround := f32Units_round h
  rw [hdist, hround, natAbs_signedMag_sub]
  push_cast
  refine ⟨hnear, fun htie hne => ?_⟩
  have hother : v * 2 ^ e ≠ roundDiv m (roundShift m e) * 2 ^ roundShift m e := by
    intro hveq
    have hzero := hdist e (roundDiv m (roundShift m e) * 2 ^ roundShift m e)
    rw [← hround, Nat.cast_mul, Nat.cast_pow, Nat.cast_ofNat, hveq, sub_self, Int.natAbs_zero, Int.natAbs_eq_zero,
      sub_eq_zero] at hzero
    exact hne (mul_right_cancel₀ (by positivity) hzero)
  have hbits : roundBits m e % 2 = 0 := by
    have hq := heven htie hother
    unfold roundBits
    omega
  have hlt := (f32Finite_round_iff neg m e).mp h
  rw [f32Round_of_finite h]
  exact lastBit_pack neg (by omega) hbits

theorem fadd_of_finite {x y : F32} (hx : f32Finite x = true) (hy : f32Finite y = true) :
    fadd x y = f32Round (f32Sum x y).1 (f32Sum x y).2 0 := by
  simp [fadd, f32IsNaN_of_finite, f32IsInf_of_finite, hx, hy]

theorem fmul_of_finite {x y : F32} (hx : f32Finite x = true) (hy : f32Finite y = true) :
    fmul x y = f32Round (f32Neg x != f32Neg y) (f32Mag x * f32Mag y) 149 := by
  simp [fmul, f32IsNaN_of_finite, f32IsInf_of_finite, hx, hy]

/-- Settles O39: the exact sum is the one integer that `fadd` rounds. -/
theorem additionRoundsToNearestEven : Obligations.AdditionRoundsToNearestEven := by
  intro x y hx hy
  rw [fadd_of_finite hx hy, ← signedMag_f32Sum, natAbs_signedMag]
  refine ⟨fun hrange => f32Finite_round_of_le _ (k := 253) rfl hrange, fun hfin => ?_⟩
  simpa only [IsNearestEven, pow_zero, mul_one] using f32Round_isNearestEven hfin

/-- Settles O40: the exact product is the one integer, in units of 2^-298, that `fmul` rounds. -/
theorem multiplicationRoundsToNearestEven : Obligations.MultiplicationRoundsToNearestEven := by
  intro x y hx hy
  rw [fmul_of_finite hx hy, f32Units_eq_signedMag x, f32Units_eq_signedMag y, signedMag_mul, natAbs_signedMag]
  exact ⟨fun hrange => f32Finite_round_of_le _ (k := 402) (by omega) hrange, fun hfin => f32Round_isNearestEven hfin⟩

/-! ### The tables -/

theorem toNat_sincW (i : Nat) : (sincW i).toNat = Config.sincHalf ⟨min i (63 - i), by omega⟩ := by
  rw [sincW, BitVec.toNat_ofNat, Nat.mod_eq_of_lt (by omega)]

theorem toNat_sincW_le (i : Nat) : (sincW i).toNat ≤ 2516 := by
  rw [toNat_sincW]
  omega

theorem sincW_mirror {i : Nat} (h : i < 64) : sincW i = sincW (63 - i) := by
  have hmin : min i (63 - i) = min (63 - i) (63 - (63 - i)) := by omega
  simp only [sincW, hmin]

/-- The upper half of the weights adds up to the lower half, read backwards. -/
theorem sincSumAll_eq_double : sincSumAll = 2 * ∑ i ∈ Finset.range 32, (sincW i).toNat := by
  have hupper : ∑ i ∈ Finset.range 32, (sincW (32 + i)).toNat = ∑ i ∈ Finset.range 32, (sincW i).toNat := by
    rw [← Finset.sum_range_reflect]
    refine Finset.sum_congr rfl fun i hi => ?_
    have hi := Finset.mem_range.mp hi
    rw [sincW_mirror (by omega), show 63 - (32 + (32 - 1 - i)) = i by omega]
  calc sincSumAll = ∑ i ∈ Finset.range (32 + 32), (sincW i).toNat := rfl
    _ = 2 * ∑ i ∈ Finset.range 32, (sincW i).toNat := by rw [Finset.sum_range_add, hupper, two_mul]

theorem tapsValid_zero (n : Nat) : tapsValid (List.replicate n 0#32) = true := by
  have hmag : f32Mag 0#32 = 0 := rfl
  simp [tapsValid, hmag, f32Finite]

theorem tapsValid_firH : tapsValid firH = true := by
  unfold firH
  split
  · assumption
  · exact tapsValid_zero _

theorem length_firH : firH.length = Config.firTaps := by
  unfold firH firRawTaps
  split <;> simp

theorem firH_mirror {j : Nat} (hj : j < Config.firTaps) :
    firH.getD j 0#32 = firH.getD (Config.firTaps - 1 - j) 0#32 := by
  have hj' : Config.firTaps - 1 - j < Config.firTaps := by omega
  unfold firH
  split
  · have hmin : min j (Config.firTaps - 1 - j)
        = min (Config.firTaps - 1 - j) (Config.firTaps - 1 - (Config.firTaps - 1 - j)) := by omega
    simp [firRawTaps, hj, hj', hmin]
  · simp [hj, hj']

/-- Settles O42: the weights are mirrored by their index, and `tapsValid` is checked on the table itself. -/
theorem tablesMeetTheirConstraints : Obligations.TablesMeetTheirConstraints := by
  have hvalid := tapsValid_firH
  rw [tapsValid, Bool.and_eq_true, List.all_eq_true, decide_eq_true_iff] at hvalid
  obtain ⟨hfinite, hsum⟩ := hvalid
  have heven : sincSumAll % 2 = 0 := by rw [sincSumAll_eq_double, Nat.mul_mod_right]
  have hodd : Config.firTaps % 2 = 1 := by unfold Config.firTaps; omega
  exact ⟨fun i hi => ⟨toNat_sincW_le i, sincW_mirror hi⟩, heven, hodd, length_firH, fun _ hj => firH_mirror hj,
    hfinite, hsum⟩

end Sys2Proof.Machine

/-! PROOFS for `10_state.md`: the invariant (O4, O5, O6), what writes RESULT, DETAIL and SUBMITTED (O45, O46) and the
STATUS word (O50). Every step is one of three kinds (`step_effect`): an instruction the decoder can produce, an input that
carries none, or an asserted reset. The invariant is then kept by each named update of the state, and a step's proof only
names the updates it makes. -/

namespace Sys2Proof.Machine

/-! ### What a step can do -/

theorem isCommand_decodeCommand (w : Word) : isCommand (decodeCommand w) = true := by
  unfold decodeCommand
  repeat' split
  all_goals rfl

theorem isProducer_decodeEvent (c : BitVec 4) : isProducer (decodeEvent c) = true := by
  unfold decodeEvent
  repeat' split
  all_goals rfl

/-- What an interface can carry: a command, a producer input or the sequencer's turn, and none of the datapath's
operations (`30_encoding.md` R105). -/
theorem decodeBytes_agent {p : Port} {bytes : List Byte} {i : Instr} (h : decodeBytes p bytes = .ok i) :
    isCommand i = true ∨ isProducer i = true ∨ i = .seqProcess := by
  cases p <;> simp only [decodeBytes] at h
  case command =>
    unfold decodeCommandBytes at h
    split at h <;> cases h
    exact .inl (isCommand_decodeCommand _)
  case event =>
    unfold decodeEventBytes at h
    split at h
    · split at h <;> cases h
      exact .inr (.inl (isProducer_decodeEvent _))
    · cases h
  case pdmWrite =>
    unfold decodePdmWriteBytes at h
    split at h
    · split at h <;> cases h
      exact .inr (.inl rfl)
    · cases h
  case sequencer =>
    unfold decodeTurn at h
    split at h <;> cases h
    exact .inr (.inr rfl)

/-- The states a command can leave (`43_controller.md`, `42_stream.md`, `30_encoding.md` R97). -/
inductive CommandEffect (s : State) : Instr → State → Prop
  | answered (i : Instr) (r : ResultCode) (d : DetailCode) : CommandEffect s i (s.setResult r d)
  | bindingFailed (d : DetailCode) : CommandEffect s .configure (s.drawBinding.setResult .configError d)
  | configured : s.st = .uninitialized → CommandEffect s .configure s.configureDone
  | emptyCapture : s.st = .configured → CommandEffect s .start s.startEmpty
  | armedCapture : s.st = .configured → invocable s.arg2 = true → s.arg1 ≠ 0#32 → destOk s.arg0 s.arg1 = true →
      CommandEffect s .start s.armCapture
  | registered : invocable s.arg0 = true →
      CommandEffect s .registerCallback (State.setResult { s with cb := s.arg0 } .ok .none)
  | cancelled : s.st = .capturing → CommandEffect s .cancel (State.setResult { s with st := .configured } .ok .none)
  | deinitialized : CommandEffect s .deinit s.deinitDone

theorem exec_command_effect {i : Instr} {s t : State} (hi : isCommand i = true) (e : exec i s = .next t) :
    CommandEffect s i t := by
  cases i <;> simp only [isCommand, Bool.false_eq_true] at hi
  case configure =>
    obtain rfl : s.configureResult = t := Host.Outcome.next.inj e
    rcases configureResult_cases s with ⟨r, d, h⟩ | ⟨_, d, h⟩ | ⟨hst, _, _, h⟩ <;> rw [h]
    · exact .answered _ r d
    · exact .bindingFailed d
    · exact .configured hst
  case start =>
    rcases execStart_cases e with ⟨r, rfl⟩ | ⟨hst, _, _, rfl⟩ | ⟨hst, hcb, hlen, hdest, rfl⟩
    · exact .answered _ r .none
    · exact .emptyCapture hst
    · exact .armedCapture hst hcb hlen hdest
  case registerCallback =>
    rcases execRegisterCallback_cases e with ⟨r, rfl⟩ | ⟨_, hcb, rfl⟩
    · exact .answered _ r .none
    · exact .registered hcb
  case cancel =>
    obtain rfl := Host.Outcome.next.inj e
    split
    · exact .cancelled (s.inProgress_iff.mp ‹_›)
    · exact .answered _ .ok .none
  case deinit =>
    obtain rfl : s.deinitDone = t := Host.Outcome.next.inj e
    exact .deinitialized
  case illegalCmd =>
    obtain rfl : s.setResult .illegalCmd .none = t := Host.Outcome.next.inj e
    exact .answered _ .illegalCmd .none

/-- The states an input leaves that runs no instruction and asserts no reset. -/
inductive InputEffect (s : State) : State → Prop
  | ignored : InputEffect s s
  | wroteArg0 (v : Word) : InputEffect s { s with arg0 := v }
  | wroteArg1 (v : Word) : InputEffect s { s with arg1 := v }
  | wroteArg2 (v : Word) : InputEffect s { s with arg2 := v }
  | readBus (v : Word) : InputEffect s (s.setBus v)
  | storedByte (a : Word) (v : Byte) : memAccepts a.toNat = true →
      InputEffect s { s with mem := Memory.writeByte s.mem a.toNat v }
  | arbitrated (l : List Input) : InputEffect s (s.setInputs l)
  | bindingAnswer (b : Binding) : InputEffect s { s with binding := b }
  | ranQueue : InputEffect s s.runOldest
  | releasedReset : InputEffect s { s with rst := false }

theorem runOther_effect {i : Input} {s t : State} (hi : i ≠ .resetAssert) (e : runOther i s = .next t) :
    InputEffect s t := by
  cases i with
  | regWrite off w v =>
    rcases hostWrite_cases e with rfl | rfl | rfl | rfl
    · exact .ignored
    · exact .wroteArg0 v
    · exact .wroteArg1 v
    · exact .wroteArg2 v
  | regRead off w =>
    obtain ⟨v, rfl⟩ := hostRead_cases e
    exact .readBus v
  | hostStore a v =>
    obtain ⟨_, ha, rfl⟩ := hostStore_cases e
    exact .storedByte a v ha
  | together write codes => cases e; exact .arbitrated _
  | bindingAnswer b => cases e; exact .bindingAnswer b
  | runQueue => cases e; exact .ranQueue
  | resetRelease => cases e; exact .releasedReset
  | resetAssert => exact absurd rfl hi
  | event _ => cases e; exact .ignored
  | pdmWrite _ => cases e; exact .ignored
  | sequencer => cases e; exact .ignored

/-- What a step from `s` to `t` does; `l` is the schedule it leaves. -/
inductive StepEffect (s t : State) : Prop
  | instr (l : List Input) (i : Instr) : s.nextInstr = some i → s.rst = false →
      isCommand i = true ∨ isProducer i = true ∨ i = .seqProcess → exec i (s.setInputs l) = .next t → StepEffect s t
  | input (l : List Input) : InputEffect (s.setInputs l) t → StepEffect s t
  | reset (l : List Input) : s.resetNext = true → t = (s.setInputs l).hardReset → StepEffect s t

theorem StepEffect.of_runBytes {p : Port} {bytes : List Byte} {s t : State} (l : List Input)
    (hnext : ∀ i, s.rst = false → decodeBytes p bytes = .ok i → s.nextInstr = some i)
    (e : runBytes p bytes (s.setInputs l) = .next t) : StepEffect s t := by
  rcases runBytes_cases e with ⟨_, rfl⟩ | ⟨hrst, i, hdec, hexec⟩
  · exact .input l .ignored
  · exact .instr l i (hnext i hrst hdec) hrst (decodeBytes_agent hdec) hexec

theorem step_effect {s t : State} (e : step s = .next t) : StepEffect s t := by
  rcases step_cases e with ⟨hin, e⟩ | ⟨i, rest, hin, e⟩
  · refine .of_runBytes (p := .sequencer) (bytes := []) s.inputs (fun i hrst hdec => ?_) e
    cases hdec
    simp [State.nextInstr, hrst, hin]
  · rcases runInput_cases e with ⟨p, bytes, hcar, e⟩ | ⟨_, e⟩
    · exact .of_runBytes rest (fun j hrst hdec => by simp [State.nextInstr, hrst, hin, Input.instr?, hcar, hdec]) e
    · by_cases hr : i = .resetAssert
      · subst hr
        exact .reset rest (by simp [State.resetNext, hin]) (Host.Outcome.next.inj e).symm
      · exact .input rest (runOther_effect hr e)

theorem invocable_iff {handle : Word} : invocable handle = true ↔ handle ≠ 0#32 := by simp [invocable]

/-! ### The sinc sum's bound (`40_pipeline.md` R123) -/

section SincBound
variable {W : Nat → Word16} {B : Nat}

theorem toNat_sincBits_le (hW : ∀ i, (W i).toNat ≤ B) (n i : Nat) (w : Word16) (acc : Word) :
    (sincBits W n i w acc).1.toNat ≤ acc.toNat + n * B := by
  induction n generalizing i w acc with
  | zero => simp [sincBits]
  | succ n ih =>
    have hadd : (acc + (W i).setWidth 32).toNat ≤ acc.toNat + B := by
      have hWi := hW i
      rw [BitVec.toNat_add, BitVec.toNat_setWidth]
      omega
    have hstep : (if w.getLsbD 0 then acc + (W i).setWidth 32 else acc).toNat ≤ acc.toNat + B := by
      split <;> omega
    have hrest := ih (i + 1) (w >>> 1) (if w.getLsbD 0 then acc + (W i).setWidth 32 else acc)
    calc (sincBits W (n + 1) i w acc).1.toNat
        ≤ (if w.getLsbD 0 then acc + (W i).setWidth 32 else acc).toNat + n * B := hrest
      _ ≤ acc.toNat + (n + 1) * B := by rw [Nat.succ_mul]; omega

theorem toNat_sincWords_le (hW : ∀ i, (W i).toNat ≤ B) (ws : List Word16) (i : Nat) (acc : Word) :
    (sincWords W ws i acc).1.toNat ≤ acc.toNat + ws.length * (Config.wordBits * B) := by
  induction ws generalizing i acc with
  | nil => simp [sincWords]
  | cons w ws ih =>
    have hword := toNat_sincBits_le hW Config.wordBits i w acc
    have hrest := ih (i + Config.wordBits) (sincBits W Config.wordBits i w acc).1
    rw [List.length_cons, Nat.succ_mul]
    simp only [sincWords]
    omega

end SincBound

theorem length_halfWords (s : State) (h : Half) : (s.halfWords h).length = 4 := by cases h <;> rfl

theorem toNat_sincOf_le (s : State) (h : Half) : (s.sincOf h).toNat ≤ 161024 := by
  have hsum := toNat_sincWords_le toNat_sincW_le (s.halfWords h) 0 0#32
  rw [length_halfWords] at hsum
  exact hsum

/-! ### What the sequencer leaves unchanged -/

theorem Half.eq_or_eq_other (k h : Half) : k = h ∨ k = h.other := by cases k <;> cases h <;> simp [Half.other]

@[simp] theorem State.pipeHalf_pend (s : State) (h k : Half) : (s.pipeHalf h).pend k = s.pend k := by
  cases k <;> simp [State.pipeHalf, State.consumeHalf]

@[simp] theorem State.pipeHalf_nextProc (s : State) (h : Half) : (s.pipeHalf h).nextProc = s.nextProc := by
  simp [State.pipeHalf, State.consumeHalf]

@[simp] theorem State.pipeHalf_st (s : State) (h : Half) : (s.pipeHalf h).st = s.st := by
  simp [State.pipeHalf, State.consumeHalf]

@[simp] theorem State.pipeHalf_result (s : State) (h : Half) : (s.pipeHalf h).result = s.result := by
  simp [State.pipeHalf, State.consumeHalf]

@[simp] theorem State.pipeHalf_detail (s : State) (h : Half) : (s.pipeHalf h).detail = s.detail := by
  simp [State.pipeHalf, State.consumeHalf]

@[simp] theorem State.pipeHalf_submitted (s : State) (h : Half) : (s.pipeHalf h).submitted = s.submitted := by
  simp [State.pipeHalf, State.consumeHalf]

theorem deliverSample_halves {p : Word16} {s t : State} (e : deliverSample p s = .next t) :
    t.nextProc = s.nextProc ∧ ∀ h, t.pend h = s.pend h := by
  obtain ⟨_, _, ⟨_, rfl⟩ | ⟨_, rfl⟩⟩ := deliverSample_cases e
  all_goals exact ⟨rfl, fun h => by cases h <;> rfl⟩

/-! ### The invariant after reset -/

theorem f32OfNat_zero : f32OfNat 0 = 0#32 := by decide

theorem stateInv_reset : StateInv State.reset where
  cursor_le := Nat.le_refl _
  delay_length := List.length_replicate
  own_eq_pend h := by cases h <;> rfl
  pend_order := by decide
  event_order := by decide
  armed_iff := by decide
  fault_iff := by decide
  cause_iff := by decide
  half_of_no_fault _ := rfl
  capture_ok := by decide
  quiet _ := ⟨rfl, rfl⟩
  mem_wf := Memory.wf_reset
  reset_held _ := rfl
  sinc_le := Nat.zero_le _
  delay_range x hx := ⟨0, Nat.zero_le _, by rw [f32OfNat_zero]; exact List.eq_of_mem_replicate hx⟩
  queue_le := Nat.le_refl _

/-- Settles O4. -/
theorem invariantHoldsAtReset : Obligations.InvariantHoldsAtReset := stateInv_reset

/-! ### The invariant under each update of the state -/

namespace StateInv
variable {s t : State}

theorem setInputs (hs : StateInv s) (l : List Input) : StateInv (s.setInputs l) := { hs with }

theorem setResult (hs : StateInv s) (r : ResultCode) (d : DetailCode) : StateInv (s.setResult r d) := { hs with }

theorem drawBinding (hs : StateInv s) : StateInv s.drawBinding := { hs with }

theorem putWord (hs : StateInv s) (idx : BitVec 3) (data : Word16) : StateInv (s.putWord idx data) := { hs with }

theorem consumeHalf (hs : StateInv s) (h : Half) : StateInv (s.consumeHalf h) := by
  cases h <;> exact { hs with }

theorem clearWritten (hs : StateInv s) (h : Half) : StateInv (s.clearWritten h) := by
  cases h <;> exact { hs with }

theorem setLast (hs : StateInv s) {v : Word} (hv : v.toNat ≤ 161024) (p : Word16) : StateInv (s.setLast v p) :=
  { hs with sinc_le := hv }

/-- I2: the shift drops one entry for the one it inserts. -/
theorem firPush (hs : StateInv s) {x : Word} (hx : x.toNat ≤ 161024) : StateInv (s.firPush x) :=
  { hs with
    delay_length := by
      have hlen := hs.delay_length
      simp [State.delayAfter, firShift, hlen]
    delay_range := fun y hy => by
      rcases List.mem_cons.mp (List.mem_of_mem_take hy) with rfl | hy
      · exact ⟨x.toNat, hx, rfl⟩
      · exact hs.delay_range y hy }

theorem pipeHalf (hs : StateInv s) (h : Half) : StateInv (s.pipeHalf h) :=
  (((hs.consumeHalf h).firPush (toNat_sincOf_le s h)).clearWritten h).setLast (toNat_sincOf_le s h) _

theorem writeByte (hs : StateInv s) {a : Nat} (ha : memAccepts a = true) (v : Byte) :
    StateInv { s with mem := Memory.writeByte s.mem a v } :=
  { hs with mem_wf := Memory.wf_writeByte v hs.mem_wf (lt_of_memAccepts ha) }

theorem runOldest (hs : StateInv s) : StateInv s.runOldest :=
  { hs with
    queue_le := by
      have hle := hs.queue_le
      simp only [State.runOldest]
      split <;> omega }

theorem releaseReset (hs : StateInv s) : StateInv { s with rst := false } := { hs with reset_held := nofun }

theorem hardReset (hs : StateInv s) : StateInv s.hardReset :=
  { stateInv_reset with mem_wf := hs.mem_wf, queue_le := hs.queue_le, reset_held := fun _ => rfl }

/-! #### Commands -/

theorem deinitDone (hs : StateInv s) : StateInv s.deinitDone :=
  { stateInv_reset with mem_wf := hs.mem_wf, queue_le := hs.queue_le, reset_held := fun _ => rfl }

/-- An active block is armed, without a fault and out of reset. -/
theorem active_flags (hs : StateInv s) (hst : s.st = .configured ∨ s.st = .capturing) :
    s.armed = true ∧ s.fault = false ∧ s.rst = false := by
  refine ⟨hs.armed_iff.mpr hst, eq_false_of_ne_true fun hf => ?_, eq_false_of_ne_true fun hr => ?_⟩
  · simp [hs.fault_iff.mp hf] at hst
  · simp [hs.reset_held hr] at hst

theorem configureDone (hs : StateInv s) (hrst : s.rst = false) : StateInv s.configureDone :=
  { stateInv_reset with
    cursor_le := hs.cursor_le
    armed_iff := ⟨fun _ => .inl rfl, fun _ => rfl⟩
    fault_iff := ⟨nofun, nofun⟩
    event_order := fun _ => rfl
    capture_ok := nofun
    quiet := fun _ => ⟨rfl, rfl⟩
    mem_wf := hs.mem_wf
    reset_held := fun hr => nomatch hrst.symm.trans hr
    sinc_le := hs.sinc_le
    queue_le := hs.queue_le }

theorem startEmpty (hs : StateInv s) (hst : s.st = .configured) : StateInv s.startEmpty :=
  { hs with
    capture_ok := fun hc => nomatch hst.symm.trans hc
    queue_le := by
      have hle := hs.queue_le
      simp only [State.startEmpty, State.setResult_queueRun, State.submit_queueRun, State.setResult_submitted,
        State.submit_submitted, List.length_append]
      omega }

/-- I7: a capture starts with what START checked. -/
theorem armCapture (hs : StateInv s) (hst : s.st = .configured) (hcb : invocable s.arg2 = true)
    (hlen : s.arg1 ≠ 0#32) (hdest : destOk s.arg0 s.arg1 = true) : StateInv s.armCapture := by
  simp only [destOk, Bool.and_eq_true, Bool.not_eq_true', decide_eq_true_iff] at hdest
  have hpos : 0 < s.arg1.toNat := Nat.pos_of_ne_zero fun h0 => hlen (BitVec.eq_of_toNat_eq h0)
  obtain ⟨harmed, hfault, hrst⟩ := hs.active_flags (.inl hst)
  exact { hs with
    cursor_le := Nat.zero_le _
    armed_iff := ⟨fun _ => .inr rfl, fun _ => harmed⟩
    fault_iff := ⟨fun hf => (nomatch hfault.symm.trans hf), nofun⟩
    capture_ok := fun _ => ⟨invocable_iff.mp hcb, hpos, hdest.1, hdest.2⟩
    quiet := nofun
    reset_held := fun hr => nomatch hrst.symm.trans hr }

theorem registerCallback (hs : StateInv s) {handle : Word} (hcb : invocable handle = true) :
    StateInv { s with cb := handle } :=
  { hs with
    capture_ok := fun hc =>
      have ⟨_, hrest⟩ := hs.capture_ok hc
      ⟨invocable_iff.mp hcb, hrest⟩ }

theorem leaveCapture (hs : StateInv s) (hst : s.st = .capturing) : StateInv { s with st := .configured } := by
  obtain ⟨harmed, hfault, hrst⟩ := hs.active_flags (.inr hst)
  exact { hs with
    armed_iff := ⟨fun _ => .inl rfl, fun _ => harmed⟩
    fault_iff := ⟨fun hf => (nomatch hfault.symm.trans hf), nofun⟩
    capture_ok := nofun
    quiet := nofun
    reset_held := fun hr => nomatch hrst.symm.trans hr }

theorem of_commandEffect {i : Instr} (hs : StateInv s) (hrst : s.rst = false) (e : CommandEffect s i t) :
    StateInv t := by
  cases e with
  | answered _ r d => exact hs.setResult r d
  | bindingFailed d => exact hs.drawBinding.setResult _ d
  | configured _ => exact hs.configureDone hrst
  | emptyCapture hst => exact hs.startEmpty hst
  | armedCapture hst hcb hlen hdest => exact hs.armCapture hst hcb hlen hdest
  | registered hcb => exact (hs.registerCallback hcb).setResult _ _
  | cancelled hst => exact (hs.leaveCapture hst).setResult _ _
  | deinitialized => exact hs.deinitDone

/-! #### Producer inputs -/

theorem faultEntry (hs : StateInv s) (harmed : s.armed = true) {c : FaultCause} (hc : c ≠ .none) (h : Half) :
    StateInv (s.faultEntry c h) := by
  obtain ⟨_, _, hrst⟩ := hs.active_flags (hs.armed_iff.mp harmed)
  exact { hs with
    own_eq_pend := fun k => by cases k <;> rfl
    pend_order := by cases hp : s.nextProc <;> simp [State.faultEntry, State.pend, Half.other, hp]
    event_order := nofun
    armed_iff := ⟨nofun, by rintro (h | h) <;> cases h⟩
    fault_iff := ⟨fun _ => rfl, fun _ => rfl⟩
    cause_iff := ⟨fun _ => hc, fun _ => rfl⟩
    half_of_no_fault := nofun
    capture_ok := nofun
    quiet := fun _ => ⟨rfl, rfl⟩
    reset_held := fun hr => nomatch hrst.symm.trans hr }

/-- I5: after ACCEPT the half NEXT_PROC is pending, for it was the one accepted unless it was pending already. -/
theorem takeHalf (hs : StateInv s) (harmed : s.armed = true) {h : Half} (hevt : h = s.nextEvt)
    (hown : s.own h = false) : StateInv (s.takeHalf h) := by
  have hfree : s.pend h = false := (hs.own_eq_pend h).symm.trans hown
  have howner : ∀ k, (s.takeHalf h).own k = (s.takeHalf h).pend k := fun k => by
    rcases Half.eq_or_eq_other k h with rfl | rfl
    · simp
    · simp [hs.own_eq_pend]
  have hnow : (s.takeHalf h).pend s.nextProc = true
      ∧ h.other = if true = (s.takeHalf h).pend s.nextProc.other then s.nextProc else s.nextProc.other := by
    have horder := hs.event_order harmed
    rw [← hevt] at horder
    by_cases hsame : s.pend s.nextProc = s.pend s.nextProc.other
    · rw [if_pos hsame] at horder
      subst horder
      simp [hsame.symm.trans hfree]
    · rw [if_neg hsame] at horder
      have hproc : s.nextProc = h.other := by simp [horder]
      rw [hproc, Half.other_other, hfree, Bool.not_eq_false] at hsame
      simp [hproc, hsame]
  obtain ⟨hpend, hnext⟩ := hnow
  have hactive : ¬ (s.st = .uninitialized ∨ s.st = .stopped) := by
    rcases hs.armed_iff.mp harmed with hst | hst <;> simp [hst]
  cases h <;> exact { hs with
    own_eq_pend := howner
    pend_order := fun _ => hpend
    event_order := fun _ => hpend ▸ hnext
    quiet := fun hq => absurd hq hactive }

theorem of_producer {i : Instr} (hs : StateInv s) (hi : isProducer i = true) (e : exec i s = .next t) :
    StateInv t := by
  rcases producer_cases hi e with rfl | ⟨harmed, c, h, hc, _, rfl⟩ | ⟨harmed, h, hevt, hown, rfl⟩
    | ⟨_, idx, data, _, _, rfl⟩
  · exact hs
  · exact hs.faultEntry harmed hc h
  · exact hs.takeHalf harmed hevt hown
  · exact hs.putWord idx data

/-! #### The sequencer -/

/-- I1, I7: the cursor steps within the destination, and a full destination ends the capture. -/
theorem of_deliverSample {p : Word16} (hs : StateInv s) (hst : s.st = .capturing)
    (e : deliverSample p s = .next t) : StateInv t := by
  obtain ⟨_, hfit, hcase⟩ := deliverSample_cases e
  have hwf : Memory.wf (s.storeSample p).mem = true := Memory.wf_writeSample p hs.mem_wf (lt_of_memAccepts hfit)
  rcases hcase with ⟨_, rfl⟩ | ⟨hmore, rfl⟩
  · exact { hs.leaveCapture hst with
      cursor_le := Nat.zero_le _
      capture_ok := nofun
      mem_wf := hwf
      queue_le := by
        have hle := hs.queue_le
        simp only [State.endCapture_queueRun, State.storeSample_queueRun, State.endCapture_submitted,
          State.storeSample_submitted, List.length_append]
        omega }
  · obtain ⟨hcb, hlt, heven, hend⟩ := hs.capture_ok hst
    have hroom : (s.cursor + 1#32).toNat < s.destLen.toNat := by
      have hne : (s.cursor + 1#32).toNat ≠ s.destLen.toNat := fun h => hmore (BitVec.eq_of_toNat_eq h)
      bv_omega
    exact { hs with
      cursor_le := hroom.le
      capture_ok := fun _ => ⟨hcb, hroom, heven, hend⟩
      mem_wf := hwf }

/-- I5: once NEXT_PROC's half is given back, only the other one can be pending, and NEXT_PROC names it. -/
theorem returnHalf (hs : StateInv s) {h : Half} (hproc : h = s.nextProc) (hpend : s.pend h = true) :
    StateInv (s.returnHalf h) := by
  have howner : ∀ k, (s.returnHalf h).own k = (s.returnHalf h).pend k := fun k => by
    rcases Half.eq_or_eq_other k h with rfl | rfl
    · simp
    · simp [hs.own_eq_pend]
  have hback : (s.returnHalf h).pend h.other.other = false := by simp
  have hnext : s.armed = true → s.nextEvt =
      if (s.returnHalf h).pend h.other = (s.returnHalf h).pend h.other.other then h.other else h.other.other := by
    intro harmed
    have horder := hs.event_order harmed
    rw [← hproc, hpend] at horder
    cases hother : s.pend h.other <;> simp_all
  have hquiet : s.st = .uninitialized ∨ s.st = .stopped → False := fun hq => by
    obtain ⟨h0, h1⟩ := hs.quiet hq
    cases h <;> simp_all
  cases h <;> exact { hs with
    own_eq_pend := howner
    pend_order := fun hp => nomatch hback.symm.trans hp
    event_order := hnext
    quiet := fun hq => (hquiet hq).elim }

theorem of_seqProcess (hs : StateInv s) (e : execSeqProcess s = .next t) : StateInv t := by
  rcases execSeqProcess_cases e with ⟨_, rfl⟩ | ⟨hen, e⟩
  · exact hs
  have hpend : s.pend s.nextProc = true := (Bool.and_eq_true_iff.mp hen).2
  have hpipe := hs.pipeHalf s.nextProc
  rcases processHalf_cases e with ⟨_, ⟨_, rfl⟩ | ⟨hst, u, hdel, rfl⟩⟩
  · exact hpipe.returnHalf (by simp) (by simp [hpend])
  · obtain ⟨hproc, hkeep⟩ := deliverSample_halves hdel
    exact (hpipe.of_deliverSample (by simp [hst]) hdel).returnHalf (by simp [hproc]) (by simp [hkeep, hpend])

/-! #### Every step -/

theorem of_inputEffect (hs : StateInv s) (e : InputEffect s t) : StateInv t := by
  cases e with
  | ignored => exact hs
  | wroteArg0 _ | wroteArg1 _ | wroteArg2 _ | readBus _ | arbitrated _ | bindingAnswer _ => exact { hs with }
  | storedByte a v ha => exact hs.writeByte ha v
  | ranQueue => exact hs.runOldest
  | releasedReset => exact hs.releaseReset

theorem of_exec {i : Instr} (hs : StateInv s) (hrst : s.rst = false)
    (hi : isCommand i = true ∨ isProducer i = true ∨ i = .seqProcess) (e : exec i s = .next t) : StateInv t := by
  rcases hi with hi | hi | rfl
  · exact hs.of_commandEffect hrst (exec_command_effect hi e)
  · exact hs.of_producer hi e
  · exact hs.of_seqProcess e

theorem of_step (hs : StateInv s) (e : step s = .next t) : StateInv t := by
  cases step_effect e with
  | instr l i _ hrst hi hexec => exact (hs.setInputs l).of_exec hrst hi hexec
  | input l heff => exact (hs.setInputs l).of_inputEffect heff
  | reset l _ ht => exact ht ▸ (hs.setInputs l).hardReset

end StateInv

/-- Settles O5: each agent's step is a sequence of updates that keep the invariant. -/
theorem everyStepKeepsInvariant : Obligations.EveryStepKeepsInvariant := fun _ _ hs e => hs.of_step e

/-! ### Reachable states -/

theorem Reachable.stateInv {s : State} (hs : Reachable s) : StateInv s := by
  induction hs with
  | boot l b => exact { stateInv_reset with }
  | next _ e ih => exact ih.of_step e

/-- Settles O6: I1, I2 and I5 to I8 are read off the invariant. -/
theorem reachableStatesAreLegal : Obligations.ReachableStatesAreLegal := by
  intro s hs
  have inv := hs.stateInv
  refine ⟨inv.cursor_le, inv.delay_length, inv.own_eq_pend, inv.pend_order, inv.armed_iff, inv.fault_iff,
    s.inProgress_iff, fun hst => ?_, inv.quiet⟩
  obtain ⟨hcb, hlt, _⟩ := inv.capture_ok hst
  exact ⟨hcb, Nat.one_le_of_lt hlt⟩

/-! ### RESULT, DETAIL and SUBMITTED -/

/-- The sequencer reports no result, and submits nothing but a completed capture's request. -/
theorem execSeqProcess_reports {s t : State} (e : execSeqProcess s = .next t) :
    t.result = s.result ∧ t.detail = s.detail
      ∧ (t.submitted = s.submitted ∨ s.st = .capturing ∧ ∃ r, t.submitted = s.submitted ++ [r]) := by
  rcases execSeqProcess_cases e with ⟨_, rfl⟩ | ⟨_, e⟩
  · simp
  rcases processHalf_cases e with ⟨_, ⟨_, rfl⟩ | ⟨hst, u, hdel, rfl⟩⟩
  · simp
  obtain ⟨_, _, ⟨_, rfl⟩ | ⟨_, rfl⟩⟩ := deliverSample_cases hdel
  · simp [hst]
  · simp

theorem producer_reports {i : Instr} {s t : State} (hi : isProducer i = true) (e : exec i s = .next t) :
    t.result = s.result ∧ t.detail = s.detail ∧ t.submitted = s.submitted := by
  rcases producer_cases hi e with rfl | ⟨_, c, h, _, _, rfl⟩ | ⟨_, h, _, _, rfl⟩ | ⟨_, idx, data, _, _, rfl⟩
  all_goals simp

theorem InputEffect.reports {s t : State} (e : InputEffect s t) :
    t.result = s.result ∧ t.detail = s.detail ∧ t.submitted = s.submitted := by
  cases e <;> exact ⟨rfl, rfl, rfl⟩

/-- Of the commands only START submits: the request of a destination of no samples (`42_stream.md` R183). -/
theorem CommandEffect.submits {i : Instr} {s t : State} (e : CommandEffect s i t) :
    t.submitted = s.submitted ∨ (i = .start ∧ s.st = .configured ∧ ∃ r, t.submitted = s.submitted ++ [r]) := by
  cases e with
  | emptyCapture hst => exact .inr ⟨rfl, hst, _, rfl⟩
  | _ => exact .inl rfl

/-- Settles O45: besides commands and reset, every kind of step keeps both fields. -/
theorem resultIsWrittenOnlyByCommands : Obligations.ResultIsWrittenOnlyByCommands := by
  intro s t e hcmd hreset
  cases step_effect e with
  | instr l i hnext _ hi hexec =>
    rcases hi with hi | hi | rfl
    · exact nomatch (hcmd i hnext).symm.trans hi
    · obtain ⟨hresult, hdetail, _⟩ := producer_reports hi hexec
      exact ⟨hresult, hdetail⟩
    · obtain ⟨hresult, hdetail, _⟩ := execSeqProcess_reports hexec
      exact ⟨hresult, hdetail⟩
  | input l heff =>
    obtain ⟨hresult, hdetail, _⟩ := heff.reports
    exact ⟨hresult, hdetail⟩
  | reset l hr _ => exact nomatch hreset.symm.trans hr

/-- Settles O46: only `CommandEffect.emptyCapture` and a delivered last sample append. -/
theorem submittedOnlyGrows : Obligations.SubmittedOnlyGrows := by
  intro s t e
  cases step_effect e with
  | instr l i hnext _ hi hexec =>
    rcases hi with hi | hi | rfl
    · rcases (exec_command_effect hi hexec).submits with h | ⟨rfl, hst, h⟩
      · exact .inl h
      · exact .inr ⟨.inl ⟨hnext, hst⟩, h⟩
    · obtain ⟨_, _, hsub⟩ := producer_reports hi hexec
      exact .inl hsub
    · obtain ⟨_, _, h | ⟨hst, h⟩⟩ := execSeqProcess_reports hexec
      · exact .inl h
      · exact .inr ⟨.inr ⟨hnext, hst⟩, h⟩
  | input l heff =>
    obtain ⟨_, _, hsub⟩ := heff.reports
    exact .inl hsub
  | reset l _ ht => exact .inl (by rw [ht]; rfl)

/-! ### The STATUS word -/

theorem extractLsb'_statusWord (s : State) (start len : Nat) :
    s.statusWord.extractLsb' start len
      = (0#8 ++ s.nextProc.bit ++ s.nextEvt.bit ++ BitVec.ofBool s.own1 ++ BitVec.ofBool s.own0 ++ BitVec.ofBool s.pend1
        ++ BitVec.ofBool s.pend0 ++ BitVec.ofBool s.armed ++ s.faultHalf.bit ++ s.faultCause.code ++ s.detail.code
        ++ s.result.code ++ BitVec.ofBool s.fault ++ BitVec.ofBool s.inProgress ++ s.st.code).extractLsb' start len :=
  rfl

theorem getLsbD_statusWord (s : State) (i : Nat) :
    s.statusWord.getLsbD i = (s.statusWord.extractLsb' i 1).getLsbD 0 := by simp

/-- Each field of STATUS by the model's own codes. The two append lemmas rewrite from outside in (`↓`), before the widths
are added up. -/
theorem statusWord_fields (s : State) :
    s.statusWord.extractLsb' 0 2 = s.st.code
      ∧ s.statusWord.getLsbD 2 = s.inProgress
      ∧ s.statusWord.getLsbD 3 = s.fault
      ∧ s.statusWord.extractLsb' 4 4 = s.result.code
      ∧ s.statusWord.extractLsb' 8 4 = s.detail.code
      ∧ s.statusWord.extractLsb' 12 4 = s.faultCause.code
      ∧ s.statusWord.extractLsb' 16 1 = s.faultHalf.bit
      ∧ s.statusWord.getLsbD 17 = s.armed ∧ s.statusWord.getLsbD 18 = s.pend0 ∧ s.statusWord.getLsbD 19 = s.pend1
      ∧ s.statusWord.getLsbD 20 = s.own0 ∧ s.statusWord.getLsbD 21 = s.own1
      ∧ s.statusWord.extractLsb' 22 1 = s.nextEvt.bit
      ∧ s.statusWord.extractLsb' 23 1 = s.nextProc.bit
      ∧ s.statusWord.extractLsb' 24 8 = 0#8 := by
  simp only [↓ getLsbD_statusWord, ↓ extractLsb'_statusWord, ↓ BitVec.extractLsb'_append_eq_of_le,
    ↓ BitVec.extractLsb'_append_eq_of_add_le, BitVec.extractLsb'_eq_self, BitVec.getLsbD_ofBool, Nat.le_refl,
    Nat.reduceLeDiff, Nat.reduceSub, Nat.reduceAdd, decide_true, Bool.true_and, and_self]

/-- Settles O50: the codes written out are those of the model, and IN_PROGRESS is `STATE = 2`. -/
theorem statusWordLayout : Obligations.StatusWordLayout := by
  intro s
  obtain ⟨hst, hprogress, hrest⟩ := statusWord_fields s
  exact ⟨hst, by rw [hprogress, State.inProgress_iff], hrest⟩

end Sys2Proof.Machine

/-! PROOFS for `20_memory.md`: what writes system memory (O47), the register window (O51, O52, O53) and the host's
stores (O54). A host access is an input that carries no instruction, so its step is the access itself (`step_of_inputs`
and the `runInput_…` rules). For O47 only one instruction writes memory, and it writes what `Memory.writeSample`
writes. -/

namespace Sys2Proof.Machine

/-! ### What leaves memory unchanged -/

@[simp] theorem State.pipeHalf_mem (s : State) (h : Half) : (s.pipeHalf h).mem = s.mem := by
  simp [State.pipeHalf, State.consumeHalf]

@[simp] theorem State.pipeHalf_sampleAddr (s : State) (h : Half) : (s.pipeHalf h).sampleAddr = s.sampleAddr := by
  simp [State.sampleAddr, State.pipeHalf, State.consumeHalf]

@[simp] theorem State.setInputs_sampleAddr (s : State) (l : List Input) :
    (s.setInputs l).sampleAddr = s.sampleAddr := rfl

theorem CommandEffect.mem_eq {i : Instr} {s t : State} (e : CommandEffect s i t) : t.mem = s.mem := by
  cases e <;> rfl

theorem producer_mem_eq {i : Instr} {s t : State} (hi : isProducer i = true) (e : exec i s = .next t) :
    t.mem = s.mem := by
  rcases producer_cases hi e with rfl | ⟨_, c, h, _, _, rfl⟩ | ⟨_, h, _, _, rfl⟩ | ⟨_, idx, data, _, _, rfl⟩
  all_goals simp

/-- Of the inputs that carry no instruction only a host store writes memory; an asserted `rst` keeps it (log 17). -/
theorem runOther_mem_eq {i : Input} {s t : State} (hi : ∀ a v, i ≠ .hostStore a v) (e : runOther i s = .next t) :
    t.mem = s.mem := by
  cases i with
  | hostStore a v => exact absurd rfl (hi a v)
  | regWrite off w v => rcases hostWrite_cases e with rfl | rfl | rfl | rfl <;> rfl
  | regRead off w =>
    obtain ⟨v, rfl⟩ := hostRead_cases e
    rfl
  | _ => cases e; rfl

/-! ### The sample's two bytes -/

/-- `t` has the memory of `s`, or that memory with a sample written at the sample address, in a capture
(`42_stream.md` R184). -/
def SampleWritten (s t : State) : Prop :=
  s.st = .capturing ∧ ∃ p, t.mem = Memory.writeSample s.mem s.sampleAddr p

theorem SampleWritten.readByte_of_ne {s t : State} (h : SampleWritten s t) {a : Nat} (hlow : a ≠ s.sampleAddr)
    (hhigh : a ≠ s.sampleAddr + 1) : Memory.readByte t.mem a = Memory.readByte s.mem a := by
  obtain ⟨_, p, hmem⟩ := h
  rw [hmem, Memory.readByte_writeSample_of_ne _ _ hlow hhigh]

theorem deliverSample_mem {p : Word16} {s t : State} (e : deliverSample p s = .next t) :
    t.mem = Memory.writeSample s.mem s.sampleAddr p := by
  obtain ⟨_, _, ⟨_, rfl⟩ | ⟨_, rfl⟩⟩ := deliverSample_cases e
  all_goals simp

theorem execSeqProcess_mem {s t : State} (e : execSeqProcess s = .next t) : t.mem = s.mem ∨ SampleWritten s t := by
  rcases execSeqProcess_cases e with ⟨_, rfl⟩ | ⟨_, e⟩
  · exact .inl rfl
  rcases processHalf_cases e with ⟨_, ⟨_, rfl⟩ | ⟨hst, u, hdel, rfl⟩⟩
  · exact .inl (by simp)
  · exact .inr ⟨hst, _, by simpa using deliverSample_mem hdel⟩

theorem runBytes_mem {p : Port} {bytes : List Byte} {s t : State} (e : runBytes p bytes s = .next t) :
    t.mem = s.mem ∨ (s.rst = false ∧ decodeBytes p bytes = .ok .seqProcess ∧ SampleWritten s t) := by
  rcases runBytes_cases e with ⟨_, rfl⟩ | ⟨hrst, i, hdec, hexec⟩
  · exact .inl rfl
  rcases decodeBytes_agent hdec with hi | hi | rfl
  · exact .inl (exec_command_effect hi hexec).mem_eq
  · exact .inl (producer_mem_eq hi hexec)
  · exact (execSeqProcess_mem hexec).imp_right fun hw => ⟨hrst, hdec, hw⟩

theorem step_mem {s t : State} (e : step s = .next t) (hstore : ∀ a v rest, s.inputs ≠ .hostStore a v :: rest) :
    t.mem = s.mem ∨ (s.nextInstr = some .seqProcess ∧ SampleWritten s t) := by
  rcases step_cases e with ⟨hin, e⟩ | ⟨i, rest, hin, e⟩
  · exact (runBytes_mem (p := .sequencer) (bytes := []) e).imp_right fun ⟨hrst, _, hw⟩ =>
      ⟨by simp [State.nextInstr, hrst, hin], hw⟩
  · rcases runInput_cases e with ⟨p, bytes, hcar, e⟩ | ⟨_, e⟩
    · exact (runBytes_mem e).imp_right fun ⟨hrst, hdec, hw⟩ =>
        ⟨by simp [State.nextInstr, show s.rst = false from hrst, hin, Input.instr?, hcar, hdec], hw⟩
    · exact .inl (runOther_mem_eq (s := s.setInputs rest) (fun a v hi => hstore a v rest (hi ▸ hin)) e)

/-- Settles O47: outside host stores a step that changes memory is SEQ_PROCESS writing a sample. -/
theorem memoryIsWrittenOnlyBySamplesAndHost : Obligations.MemoryIsWrittenOnlyBySamplesAndHost := by
  intro s t e hstore
  rcases step_mem e hstore with hmem | ⟨hnext, hw⟩
  · exact .inl fun a => by rw [hmem]
  · exact .inr ⟨hnext, hw.1, fun a => hw.readByte_of_ne⟩

/-! ### A host access as a step -/

theorem step_of_inputs {s : State} {i : Input} {rest : List Input} (h : s.inputs = i :: rest) :
    step s = runInput i (s.setInputs rest) := by
  simp [step, h]

theorem runInput_regRead (off : BitVec 6) (w : AccessWidth) (s : State) :
    runInput (.regRead off w) s = hostRead off w s := rfl

theorem runInput_hostStore (a : Word) (v : Byte) (s : State) : runInput (.hostStore a v) s = hostStore a v s := rfl

/-- Only a 32-bit write to CMD is an instruction (`30_encoding.md` R90). -/
theorem runInput_regWrite {off : BitVec 6} {w : AccessWidth} (h : ¬(off = 0x00#6 ∧ w = .w32)) (v : Word) (s : State) :
    runInput (.regWrite off w v) s = hostWrite off w v s := by
  simp only [runInput, Input.carried, if_neg h, runOther]

/-! ### The register window -/

theorem accessOk_iff {off : BitVec 6} {w : AccessWidth} : accessOk off w = true ↔ w = .w32 ∧ off.toNat % 4 = 0 := by
  rw [accessOk, Bool.and_eq_true, beq_iff_eq, beq_iff_eq, ← BitVec.toNat_inj, BitVec.extractLsb'_toNat,
    Nat.shiftRight_zero, BitVec.toNat_zero]

theorem accessOk_eq_false_iff {off : BitVec 6} {w : AccessWidth} :
    accessOk off w = false ↔ w ≠ .w32 ∨ off.toNat % 4 ≠ 0 := by
  rw [← Bool.not_eq_true, accessOk_iff, not_and_or]

section Access

variable {s : State} (hrst : s.rst = false) {off : BitVec 6} {w : AccessWidth}
include hrst

theorem hostRead_of_ok (h : accessOk off w = true) : hostRead off w s = .next (s.setBus (s.readReg off)) := by
  simp [hostRead, hrst, h]

theorem hostRead_of_bad (h : accessOk off w = false) : hostRead off w s = .fault (.registerAccessError off w) := by
  simp [hostRead, hrst, h]

theorem hostWrite_of_ok (h : accessOk off w = true) (v : Word) : hostWrite off w v s = .next (s.writeReg off v) := by
  simp [hostWrite, hrst, h]

theorem hostWrite_of_bad (h : accessOk off w = false) (v : Word) :
    hostWrite off w v s = .fault (.registerAccessError off w) := by
  simp [hostWrite, hrst, h]

end Access

theorem ne_of_toNat_le {off c : BitVec 6} {n : Nat} (h : n ≤ off.toNat) (hc : c.toNat < n) : off ≠ c := by
  rintro rfl
  omega

/-- The low 16 bits are LAST_PCM and the rest reads as 0 (`10_state.md` R23). -/
theorem State.readReg_lastPcm (s : State) : s.readReg 0x2C#6 = 0#16 ++ s.lastPcm :=
  BitVec.setWidth_eq_append (w := 32) (v := 16) (by decide)

/-- The reserved offsets read as 0. -/
theorem State.readReg_of_reserved (s : State) {off : BitVec 6} (h : 0x30 ≤ off.toNat) : s.readReg off = 0#32 := by
  have hne : ∀ c : BitVec 6, c.toNat < 0x30 → off ≠ c := fun c => ne_of_toNat_le h
  simp [State.readReg, hne]

/-- The read-only registers and the reserved offsets ignore a write. -/
theorem State.writeReg_of_readOnly (s : State) {off : BitVec 6} (h : 0x10 ≤ off.toNat) (v : Word) :
    s.writeReg off v = s := by
  have hne : ∀ c : BitVec 6, c.toNat < 0x10 → off ≠ c := fun c => ne_of_toNat_le h
  simp [State.writeReg, hne]

/-- Settles O51: the value on the bus is `State.readReg`, register by register. -/
theorem registerReadsReturnTheMap : Obligations.RegisterReadsReturnTheMap := by
  intro s off rest hrst halign hin
  have hstep : step s = .next { s with inputs := rest, busData := s.readReg off } := by
    rw [step_of_inputs hin, runInput_regRead,
      hostRead_of_ok (s := s.setInputs rest) hrst (accessOk_iff.mpr ⟨rfl, halign⟩)]
    rfl
  refine ⟨s.readReg off, hstep, ?_, ?_, ?_, ?_, ?_, ?_, ?_, ?_, ?_, ?_, ?_, ?_, s.readReg_of_reserved⟩
  case refine_12 =>
    rintro rfl
    exact s.readReg_lastPcm
  all_goals
    rintro rfl
    rfl

/-- Settles O52: a write that is no instruction does what `State.writeReg` does. -/
theorem registerWritesReachOnlyTheOperands : Obligations.RegisterWritesReachOnlyTheOperands := by
  intro s off v rest hrst halign hin
  have hstep : off ≠ 0x00#6 → step s = .next ((s.setInputs rest).writeReg off v) := fun hcmd => by
    rw [step_of_inputs hin, runInput_regWrite (fun h => hcmd h.1),
      hostWrite_of_ok (s := s.setInputs rest) hrst (accessOk_iff.mpr ⟨rfl, halign⟩)]
  refine ⟨?_, ?_, ?_, fun hro => ?_⟩
  case refine_4 =>
    rw [hstep (ne_of_toNat_le hro (by decide)), State.writeReg_of_readOnly _ hro]
    rfl
  all_goals
    rintro rfl
    exact hstep (by decide)

/-- Settles O53: a write that is not legal is no CMD instruction, for that one is 32 bits wide and aligned. -/
theorem badRegisterAccessesFault : Obligations.BadRegisterAccessesFault := by
  intro s off w rest hrst hbad
  have hillegal := accessOk_eq_false_iff.mpr hbad
  refine ⟨fun v hin => ?_, fun hin => ?_⟩
  · have hcmd : ¬(off = 0x00#6 ∧ w = .w32) := by
      rintro ⟨rfl, rfl⟩
      exact absurd hillegal (by decide)
    rw [step_of_inputs hin, runInput_regWrite hcmd, hostWrite_of_bad (s := s.setInputs rest) hrst hillegal]
  · rw [step_of_inputs hin, runInput_regRead, hostRead_of_bad (s := s.setInputs rest) hrst hillegal]

/-! ### The host's stores -/

theorem State.inDest_iff {s : State} {a : Nat} :
    s.inDest a = true ↔ s.destAddr.toNat ≤ a ∧ a < s.destAddr.toNat + 2 * s.destLen.toNat := by
  rw [State.inDest, destEnd, Bool.and_eq_true, decide_eq_true_iff, decide_eq_true_iff]

theorem hostStore_of_race {s : State} {a : Word} (hst : s.st = .capturing) (ha : s.inDest a.toNat = true) (v : Byte) :
    hostStore a v s = .fault (.destinationRace a) := by
  rw [hostStore, s.inProgress_iff.mpr hst, ha]
  rfl

theorem hostStore_of_no_race {s : State} {a : Word} (h : s.st ≠ .capturing ∨ s.inDest a.toNat ≠ true) (v : Byte) :
    hostStore a v s = if memAccepts a.toNat = true then .next { s with mem := Memory.writeByte s.mem a.toNat v }
      else .fault (.hostStoreRefused a) := by
  rw [hostStore, if_neg]
  rwa [Bool.and_eq_true, State.inProgress_iff, not_and_or]

/-- Settles O54: past the race test a store is one byte write, if the platform's memory accepts the address. -/
theorem hostStoresRaceOnlyInTheArmedRange : Obligations.HostStoresRaceOnlyInTheArmedRange := by
  intro s a v rest hin
  have hstep : step s = hostStore a v (s.setInputs rest) := step_of_inputs hin
  refine ⟨fun hst hlow hhigh => ?_, fun hout => ?_⟩
  · rw [hstep, hostStore_of_race (s := s.setInputs rest) hst (State.inDest_iff.mpr ⟨hlow, hhigh⟩)]
  · have hsafe : s.st ≠ .capturing ∨ s.inDest a.toNat ≠ true := hout.imp_right fun h => by
      rw [ne_eq, State.inDest_iff]
      omega
    refine ⟨Memory.writeByte s.mem a.toNat v, Memory.readByte_writeByte_self .., fun x hx =>
      Memory.readByte_writeByte_of_ne _ _ hx, ?_⟩
    rw [hstep, hostStore_of_no_race (s := s.setInputs rest) hsafe]
    rfl

end Sys2Proof.Machine

/-! PROOFS for `30_encoding.md`: the decoders and the encoder (O8, O9, O10), the step's fetch (O7), illegal words (O11)
and reserved events (O21). Each decoder's bytes join to the word they were cut from, so both directions are facts about
words: `encode_cases` names the word an encoding carries, and `encode_decodeCommand`, `encode_decodeEvent` and
`encode_decodePdmWrite` give a decoded word back. -/

namespace Sys2Proof.Machine

/-! ### The bytes of a word -/

theorem extractLsb'_append_self {m n : Nat} (x : BitVec (m + n)) : x.extractLsb' n m ++ x.extractLsb' 0 n = x := by
  rw [BitVec.extractLsb'_append_extractLsb'_eq_extractLsb' (Nat.zero_add n).symm, BitVec.extractLsb'_eq_self]

theorem decodeBytes_commandBytes (w : Word) : decodeBytes .command (commandBytes w) = .ok (decodeCommand w) := by
  have hjoin : w.extractLsb' 24 8 ++ w.extractLsb' 16 8 ++ w.extractLsb' 8 8 ++ w.extractLsb' 0 8 = w := by
    rw [BitVec.extractLsb'_append_extractLsb'_eq_extractLsb' (by rfl),
      BitVec.extractLsb'_append_extractLsb'_eq_extractLsb' (by rfl)]
    exact extractLsb'_append_self (m := 24) (n := 8) w
  exact congrArg (Except.ok ∘ decodeCommand) hjoin

theorem decodeBytes_eventBytes (c : BitVec 4) : decodeBytes .event (eventBytes c) = .ok (decodeEvent c) := by
  have hhigh : (0#4 ++ c).extractLsb' 4 4 = 0#4 := BitVec.extractLsb'_append_eq_left
  have hcode : (0#4 ++ c).extractLsb' 0 4 = c := BitVec.extractLsb'_append_eq_right
  simp only [decodeBytes, decodeEventBytes, eventBytes, hhigh, hcode, if_true]

theorem decodeBytes_pdmWriteBytes (w : BitVec 19) :
    decodeBytes .pdmWrite (pdmWriteBytes w) = .ok (decodePdmWrite w) := by
  have hhigh : (0#5 ++ w.extractLsb' 16 3).extractLsb' 3 5 = 0#5 := BitVec.extractLsb'_append_eq_left
  have hidx : (0#5 ++ w.extractLsb' 16 3).extractLsb' 0 3 = w.extractLsb' 16 3 := BitVec.extractLsb'_append_eq_right
  have hjoin : w.extractLsb' 16 3 ++ w.extractLsb' 8 8 ++ w.extractLsb' 0 8 = w := by
    rw [BitVec.extractLsb'_append_extractLsb'_eq_extractLsb' (by rfl)]
    exact extractLsb'_append_self (m := 11) (n := 8) w
  simp only [decodeBytes, decodePdmWriteBytes, pdmWriteBytes, hhigh, hidx, hjoin, if_true]

/-! ### Command words -/

/-- The words of the five commands (`30_encoding.md` R93). -/
def IsCommandWord (w : Word) : Prop := w = 1#32 ∨ w = 2#32 ∨ w = 3#32 ∨ w = 4#32 ∨ w = 5#32

theorem isCommandWord_iff_toNat {w : Word} : IsCommandWord w ↔ 1 ≤ w.toNat ∧ w.toNat ≤ 5 := by
  simp only [IsCommandWord, ← BitVec.toNat_inj, BitVec.toNat_ofNat, Nat.reducePow, Nat.reduceMod]
  omega

/-- OP and RSV are those of a command exactly when the word they make up is one. -/
theorem legalCommandFields_iff {op : BitVec 8} {rsv : BitVec 24} :
    legalCommandFields op rsv = true ↔ IsCommandWord (rsv ++ op) := by
  have hword : (rsv ++ op).toNat = 2 ^ 8 * rsv.toNat + op.toNat := by
    rw [BitVec.toNat_append, Nat.shiftLeft_eq, Nat.mul_comm, Nat.two_pow_add_eq_or_of_lt op.isLt]
  have hop := op.isLt
  simp only [legalCommandFields, Bool.and_eq_true, beq_iff_eq, decide_eq_true_iff, isCommandWord_iff_toNat, hword,
    ← BitVec.toNat_inj, BitVec.toNat_zero]
  omega

theorem wf_illegalCmd_iff {op : BitVec 8} {rsv : BitVec 24} :
    (Instr.illegalCmd op rsv).wf = true ↔ ¬IsCommandWord (rsv ++ op) := by
  rw [Instr.wf, Bool.not_eq_true', ← Bool.not_eq_true, legalCommandFields_iff]

theorem decodeCommand_of_illegal {w : Word} (h : ¬IsCommandWord w) :
    decodeCommand w = .illegalCmd (w.extractLsb' 0 8) (w.extractLsb' 8 24) := by
  obtain ⟨h1, h2, h3, h4, h5⟩ : w ≠ 1#32 ∧ w ≠ 2#32 ∧ w ≠ 3#32 ∧ w ≠ 4#32 ∧ w ≠ 5#32 := by
    simpa only [IsCommandWord, not_or] using h
  rw [decodeCommand, if_neg h1, if_neg h2, if_neg h3, if_neg h4, if_neg h5]

theorem append_commandFields (w : Word) : w.extractLsb' 8 24 ++ w.extractLsb' 0 8 = w :=
  extractLsb'_append_self (m := 24) (n := 8) w

theorem decodeCommand_illegalFields {op : BitVec 8} {rsv : BitVec 24} (h : (Instr.illegalCmd op rsv).wf = true) :
    decodeCommand (rsv ++ op) = .illegalCmd op rsv := by
  rw [decodeCommand_of_illegal (wf_illegalCmd_iff.mp h), BitVec.extractLsb'_append_eq_right,
    BitVec.extractLsb'_append_eq_left]

theorem wf_decodeCommand (w : Word) : (decodeCommand w).wf = true := by
  by_cases hw : IsCommandWord w
  · rcases hw with rfl | rfl | rfl | rfl | rfl <;> rfl
  · rwa [decodeCommand_of_illegal hw, wf_illegalCmd_iff, append_commandFields]

theorem encode_decodeCommand (w : Word) : encode (decodeCommand w) = some (.command, commandBytes w) := by
  by_cases hw : IsCommandWord w
  · rcases hw with rfl | rfl | rfl | rfl | rfl <;> rfl
  · rw [decodeCommand_of_illegal hw, encode, append_commandFields]

/-! ### Event codes and word writes -/

/-- The table of the 16 codes, row by row (`30_encoding.md` R98). -/
theorem encode_decodeEvent : ∀ c : BitVec 4, encode (decodeEvent c) = some (.event, eventBytes c) := by decide

theorem decodeEvent_code67 : ∀ low : BitVec 1, decodeEvent (0b011#3 ++ low) = .evtReserved67 low := by decide

theorem decodeEvent_code8F : ∀ low : BitVec 3, decodeEvent (0b1#1 ++ low) = .evtReserved8F low := by decide

theorem decodePdmWrite_append (idx : BitVec 3) (data : Word16) : decodePdmWrite (idx ++ data) = .pdmWr idx data := by
  rw [decodePdmWrite, BitVec.extractLsb'_append_eq_left, BitVec.extractLsb'_append_eq_right]

theorem encode_decodePdmWrite (w : BitVec 19) : encode (decodePdmWrite w) = some (.pdmWrite, pdmWriteBytes w) := by
  have hjoin : w.extractLsb' 16 3 ++ w.extractLsb' 0 16 = w := extractLsb'_append_self (m := 3) (n := 16) w
  rw [decodePdmWrite, encode, hjoin]

/-! ### The round trips -/

/-- The encoding of a well-formed instruction carries a word of one interface that its decoder maps to the instruction,
or is the sequencer's turn. -/
theorem encode_cases {i : Instr} {p : Port} {bytes : List Byte} (hwf : i.wf = true) (e : encode i = some (p, bytes)) :
    (∃ w, p = .command ∧ bytes = commandBytes w ∧ decodeCommand w = i) ∨
    (∃ c, p = .event ∧ bytes = eventBytes c ∧ decodeEvent c = i) ∨
    (∃ w, p = .pdmWrite ∧ bytes = pdmWriteBytes w ∧ decodePdmWrite w = i) ∨
    (p = .sequencer ∧ bytes = [] ∧ i = .seqProcess) := by
  cases i <;> cases e
  case configure | start | registerCallback | cancel | deinit => exact .inl ⟨_, rfl, rfl, rfl⟩
  case illegalCmd op rsv => exact .inl ⟨_, rfl, rfl, decodeCommand_illegalFields hwf⟩
  case evtHalf | evtFull | evtErrOverrun | evtErrPeripheral | evtReserved0 | evtReserved5 =>
    exact .inr (.inl ⟨_, rfl, rfl, rfl⟩)
  case evtReserved67 low => exact .inr (.inl ⟨_, rfl, rfl, decodeEvent_code67 low⟩)
  case evtReserved8F low => exact .inr (.inl ⟨_, rfl, rfl, decodeEvent_code8F low⟩)
  case pdmWr idx data => exact .inr (.inr (.inl ⟨_, rfl, rfl, decodePdmWrite_append idx data⟩))
  case seqProcess => exact .inr (.inr (.inr ⟨rfl, rfl, rfl⟩))

/-- Settles O8: the bytes of an encoding decode as the word they carry, and that word decodes to the instruction. -/
theorem decodeInvertsEncode : Obligations.DecodeInvertsEncode := by
  intro i p bytes hwf e
  rcases encode_cases hwf e with ⟨w, rfl, rfl, rfl⟩ | ⟨c, rfl, rfl, rfl⟩ | ⟨w, rfl, rfl, rfl⟩ | ⟨rfl, rfl, rfl⟩
  · exact decodeBytes_commandBytes w
  · exact decodeBytes_eventBytes c
  · exact decodeBytes_pdmWriteBytes w
  · rfl

/-- Settles O9: each interface's decoder is total on its words, and encoding what it answers gives the word back. -/
theorem everyWordHasOneMeaning : Obligations.EveryWordHasOneMeaning :=
  ⟨fun w => ⟨decodeBytes_commandBytes w, wf_decodeCommand w, isCommand_decodeCommand w, encode_decodeCommand w⟩,
    fun c => ⟨decodeBytes_eventBytes c, isProducer_decodeEvent c, encode_decodeEvent c⟩,
    fun w => ⟨decodeBytes_pdmWriteBytes w, rfl, encode_decodePdmWrite w⟩⟩

/-- Settles O10: the words are literals, so the decoder computes each answer. -/
theorem specWordsDecode : Obligations.SpecWordsDecode := ⟨rfl, rfl, rfl, rfl, rfl, rfl⟩

/-! ### Fetching and running -/

theorem runInput_of_carried {inp : Input} {p : Port} {bytes : List Byte} (h : inp.carried = some (p, bytes)) (s : State) :
    runInput inp s = runBytes p bytes s := by
  simp only [runInput, h]

theorem runBytes_of_decode {p : Port} {bytes : List Byte} {i : Instr} {s : State} (hrst : s.rst = false)
    (h : decodeBytes p bytes = .ok i) : runBytes p bytes s = exec i s := by
  simp only [runBytes, hrst, h, Bool.false_eq_true, if_false]

theorem step_of_no_inputs {s : State} (h : s.inputs = []) : step s = runInput .sequencer s := by
  simp only [step, h, idleStep]

/-- Settles O7: taking the input leaves `rst` as it is, so its bytes run. -/
theorem stepRunsDecodedInstruction : Obligations.StepRunsDecodedInstruction := by
  refine ⟨fun s inp rest p bytes i hin hrst hcar hdec => ?_, fun _ => rfl, fun _ => rfl, fun _ => rfl, rfl,
    fun s hin hrst => ?_⟩
  · rw [step_of_inputs hin, runInput_of_carried hcar, runBytes_of_decode (s := s.setInputs rest) hrst hdec]
    rfl
  · rw [step_of_no_inputs hin, runInput_of_carried rfl, runBytes_of_decode hrst rfl]

/-! ### Illegal words and reserved events -/

theorem exec_illegalCmd (op : BitVec 8) (rsv : BitVec 24) (s : State) :
    exec (.illegalCmd op rsv) s = .next (s.setResult .illegalCmd .none) := rfl

/-- Settles O11: a word that is no command decodes to an ILLEGAL_CMD, whatever its fields. -/
theorem illegalWordOnlyWritesResult : Obligations.IllegalWordOnlyWritesResult := by
  refine ⟨fun w h1 h2 h3 h4 h5 s => ?_, exec_illegalCmd⟩
  have hw : ¬IsCommandWord w := by simp [IsCommandWord, h1, h2, h3, h4, h5]
  rw [decodeCommand_of_illegal hw]
  exact exec_illegalCmd _ _ s

theorem whileArmed_of_armed {s : State} (h : s.armed = true) (o : Answer) : whileArmed s o = o := by
  simp only [whileArmed, h, if_true]

theorem whileArmed_of_disarmed {s : State} (h : s.armed = false) (o : Answer) : whileArmed s o = .next s := by
  simp only [whileArmed, h, Bool.false_eq_true, if_false]

theorem reservedEvent_of_armed {s : State} (h : s.armed = true) :
    reservedEvent s = .next (s.faultEntry .badEvent .first) := whileArmed_of_armed h _

/-- The codes 1 to 4 excluded, the decoder answers one of the four EVT_RESERVED rows. -/
theorem exec_decodeEvent_of_reserved {c : BitVec 4} (hc : c.toNat = 0 ∨ 5 ≤ c.toNat) (s : State) :
    exec (decodeEvent c) s = reservedEvent s := by
  obtain ⟨h1, h2, h3, h4⟩ : c ≠ 0x1#4 ∧ c ≠ 0x2#4 ∧ c ≠ 0x3#4 ∧ c ≠ 0x4#4 := by
    simp only [ne_eq, ← BitVec.toNat_inj, BitVec.toNat_ofNat, Nat.reducePow, Nat.reduceMod]
    omega
  rw [decodeEvent, if_neg h1, if_neg h2, if_neg h3, if_neg h4]
  repeat' split
  all_goals rfl

/-- Settles O21: each reserved code and each of the four rows runs `reservedEvent`. -/
theorem reservedEventsRaiseBadEvent : Obligations.ReservedEventsRaiseBadEvent := by
  refine fun s => ⟨fun c hc => ?_, fun harmed => ?_⟩
  · rw [exec_decodeEvent_of_reserved hc]
    exact ⟨reservedEvent_of_armed, fun h => whileArmed_of_disarmed h _⟩
  · have hfault := reservedEvent_of_armed harmed
    exact ⟨hfault, hfault, fun _ => hfault, fun _ => hfault⟩

end Sys2Proof.Machine

/-! PROOFS for `40_pipeline.md`: the sinc sum (O33, O34, O35), the FIR smoother (O36, O37), the two conversions
(O38, O41) and the pipeline in the sequencer's step (O29, O43). The decimator's two loops are read once (`sincBits_eq`,
`sincWords_eq`); the laws of the sum are then laws of `windowSum`, a sum over the set bits of a 64-bit window. -/

namespace Sys2Proof.Machine

/-! ### The decimator's loops (`40_pipeline.md` R120, R121) -/

/-- What the set bits among the low `n` of a word add, where bit 0 has weight index `i`. -/
def bitSum (W : Nat → Word16) (n i : Nat) (w : Word16) : Nat :=
  ∑ b : Fin n, if w.getLsbD b then (W (i + b)).toNat else 0

theorem bitSum_succ (W : Nat → Word16) (n i : Nat) (w : Word16) :
    bitSum W (n + 1) i w = (if w.getLsbD 0 then (W i).toNat else 0) + bitSum W n (i + 1) (w >>> 1) := by
  simp [bitSum, Fin.sum_univ_succ, Nat.add_comm, Nat.add_left_comm]

/-- The inner loop adds the weights of the set bits and shifts them out. -/
theorem sincBits_eq (W : Nat → Word16) (n i : Nat) (w : Word16) (acc : Word) :
    sincBits W n i w acc = (acc + BitVec.ofNat 32 (bitSum W n i w), w >>> n) := by
  induction n generalizing i w acc with
  | zero => simp [sincBits, bitSum]
  | succ n ih =>
    have hacc : (if w.getLsbD 0 then acc + (W i).setWidth 32 else acc)
        = acc + BitVec.ofNat 32 (if w.getLsbD 0 then (W i).toNat else 0) := by
      split <;> simp [← BitVec.ofNat_toNat]
    rw [sincBits, ih, hacc, bitSum_succ, BitVec.ofNat_add, BitVec.add_assoc, Nat.add_comm n 1,
      BitVec.shiftRight_add]

/-- The outer loop adds the words' sums and leaves every word at 0. -/
theorem sincWords_eq (W : Nat → Word16) (ws : List Word16) (i : Nat) (acc : Word) :
    sincWords W ws i acc
      = (acc + BitVec.ofNat 32 (∑ k : Fin ws.length, bitSum W 16 (i + 16 * k) ws[k]),
          List.replicate ws.length 0#16) := by
  induction ws generalizing i acc with
  | nil => simp [sincWords]
  | cons w ws ih =>
    have hshift : w >>> 16 = 0#16 := BitVec.ushiftRight_eq_zero (Nat.le_refl 16)
    have hindex : ∀ k : Nat, i + 16 + 16 * k = i + 16 * (k + 1) := by omega
    simp only [sincWords, Config.wordBits, sincBits_eq, ih, hshift, hindex, List.length_cons, List.replicate_succ,
      Fin.sum_univ_succ, BitVec.ofNat_add, BitVec.add_assoc]
    simp

theorem sincSum_eq_closed (w0 w1 w2 w3 : Word16) :
    sincSum sincW [w0, w1, w2, w3] = BitVec.ofNat 32 (sincClosed [w0, w1, w2, w3]) := by
  rw [sincSum, sincWords_eq, BitVec.zero_add]
  simp [sincClosed, bitSum, Fin.sum_univ_succ (n := 3)]

theorem sincResidue_eq_replicate (W : Nat → Word16) (ws : List Word16) :
    sincResidue W ws = List.replicate ws.length 0#16 := by
  rw [sincResidue, sincWords_eq]

/-! ### The sum over a 64-bit window (`40_pipeline.md` R123, R124) -/

/-- The weights of the set bits of a window. -/
def windowSum (x : BitVec 64) : Nat := ∑ i : Fin 64, if x.getLsbD i then (sincW i).toNat else 0

/-- Bit `b` of word `k` is bit `16k + b` of the window. -/
theorem getLsbD_windowWords (x : BitVec 64) (k : Fin 4) (b : Fin 16) :
    ((windowWords x).getD k 0#16).getLsbD b = x.getLsbD (16 * k + b) := by
  have hword : (windowWords x).getD k 0#16 = x.extractLsb' (16 * k) 16 := by fin_cases k <;> rfl
  rw [hword, BitVec.getLsbD_extractLsb', decide_eq_true b.isLt, Bool.true_and]

theorem sincClosed_windowWords (x : BitVec 64) : sincClosed (windowWords x) = windowSum x :=
  calc sincClosed (windowWords x)
      = ∑ p : Fin 4 × Fin 16, if x.getLsbD (finProdFinEquiv p) then (sincW (finProdFinEquiv p)).toNat else 0 := by
        simp only [sincClosed, getLsbD_windowWords, Fintype.sum_prod_type, finProdFinEquiv_apply_val, Nat.add_comm]
    _ = windowSum x := Equiv.sum_comp finProdFinEquiv fun i => if x.getLsbD i then (sincW i).toNat else 0

theorem windowSum_allOnes : windowSum (BitVec.allOnes 64) = sincSumAll := by
  have hrange : sincSumAll = ∑ i ∈ Finset.range 64, (sincW i).toNat := rfl
  rw [hrange, Finset.sum_range]
  exact Finset.sum_congr rfl fun i _ => if_pos (by rw [BitVec.getLsbD_allOnes, decide_eq_true i.isLt])

theorem sincSumAll_le : sincSumAll ≤ 161024 := by
  calc sincSumAll = ∑ i ∈ Finset.range 64, (sincW i).toNat := rfl
    _ ≤ (Finset.range 64).card • 2516 := Finset.sum_le_card_nsmul _ _ _ fun i _ => toNat_sincW_le i
    _ = 161024 := rfl

theorem windowSum_mono {x y : BitVec 64} (h : x &&& y = x) : windowSum x ≤ windowSum y := by
  refine Finset.sum_le_sum fun i _ => ?_
  have hbit : (x.getLsbD i && y.getLsbD i) = x.getLsbD i := by rw [← BitVec.getLsbD_and, h]
  cases hx : x.getLsbD i
  · exact Nat.zero_le _
  · rw [hx, Bool.true_and] at hbit
    rw [hbit]

/-- No half has a bit that the window of all ones lacks. -/
theorem sincClosed_le (ws : List Word16) : sincClosed ws ≤ sincSumAll := by
  rw [← windowSum_allOnes, ← sincClosed_windowWords]
  refine Finset.sum_le_sum fun k _ => Finset.sum_le_sum fun b _ => ?_
  have hone : ((windowWords (BitVec.allOnes 64)).getD k 0#16).getLsbD b = true := by
    rw [getLsbD_windowWords, BitVec.getLsbD_allOnes, decide_eq_true (by omega)]
  rw [if_pos hone]
  split <;> omega

theorem windowSum_or {x y : BitVec 64} (h : x &&& y = 0#64) : windowSum (x ||| y) = windowSum x + windowSum y := by
  rw [windowSum, windowSum, windowSum, ← Finset.sum_add_distrib]
  refine Finset.sum_congr rfl fun i _ => ?_
  have hbit : (x.getLsbD i && y.getLsbD i) = false := by rw [← BitVec.getLsbD_and, h, BitVec.getLsbD_zero]
  rw [BitVec.getLsbD_or]
  cases hx : x.getLsbD i <;> cases hy : y.getLsbD i <;> simp_all

theorem windowSum_add_not (x : BitVec 64) : windowSum x + windowSum (~~~x) = sincSumAll := by
  rw [← windowSum_or (BitVec.and_not_self x), BitVec.or_not_self, windowSum_allOnes]

theorem windowSum_twoPow {i : Nat} (h : i < 64) : windowSum (BitVec.twoPow 64 i) = (sincW i).toNat := by
  have hbit : ∀ j : Fin 64, (BitVec.twoPow 64 i).getLsbD j = true ↔ ⟨i, h⟩ = j := by
    intro j
    rw [BitVec.getLsbD_twoPow, Bool.and_eq_true, decide_eq_true_iff, decide_eq_true_iff, Fin.ext_iff]
    exact and_iff_right h
  simp only [windowSum, hbit, Finset.sum_ite_eq, Finset.mem_univ, if_true]

/-- The weights are mirrored, so reading the window backwards adds the same ones. -/
theorem windowSum_reverse (x : BitVec 64) : windowSum x.reverse = windowSum x := by
  rw [windowSum, ← Equiv.sum_comp Fin.revPerm]
  refine Finset.sum_congr rfl fun i _ => ?_
  have hrev : (Fin.revPerm i : Nat) = 63 - i := by simp [Fin.val_rev]
  have hbit : x.reverse.getLsbD (63 - i) = x.getLsbD i := by
    rw [BitVec.getLsbD_reverse, BitVec.getMsbD_eq_getLsbD]
    simp [show 63 - (63 - i.val) = i by omega, show 63 - i.val < 64 by omega]
  rw [hrev, hbit, ← sincW_mirror i.isLt]

theorem toNat_sincSum (w0 w1 w2 w3 : Word16) :
    (sincSum sincW [w0, w1, w2, w3]).toNat = sincClosed [w0, w1, w2, w3] := by
  have hle := sincClosed_le [w0, w1, w2, w3]
  have hmax := sincSumAll_le
  rw [sincSum_eq_closed, BitVec.toNat_ofNat, Nat.mod_eq_of_lt (by omega)]

theorem toNat_sincSum_window (x : BitVec 64) : (sincSum sincW (windowWords x)).toNat = windowSum x :=
  (toNat_sincSum ..).trans (sincClosed_windowWords x)

/-- Settles O34: the loops' value is the closed form, which is too small to wrap. -/
theorem sincSumNeverOverflows : Obligations.SincSumNeverOverflows :=
  fun w0 w1 w2 w3 => ⟨toNat_sincSum w0 w1 w2 w3, sincClosed_le _, sincSumAll_le⟩

/-- Settles O35: each law of the returned sum is a law of `windowSum`. -/
theorem sincSumLaws : Obligations.SincSumLaws := by
  unfold Obligations.SincSumLaws
  simp only [toNat_sincSum_window]
  have hzero : windowSum 0#64 = 0 := by simp [windowSum]
  exact ⟨hzero, windowSum_allOnes, fun _ => windowSum_twoPow, fun _ _ => windowSum_or, windowSum_add_not,
    windowSum_reverse, fun _ _ => windowSum_mono⟩

/-! ### The written words of a half (`40_pipeline.md` R122) -/

theorem halfWords_eq_halfOf (s : State) (h : Half) : s.halfWords h = halfOf s h := by cases h <;> rfl

theorem halfWritten_iff (s : State) (h : Half) :
    halfWritten s h = true ↔ ∀ k : Fin 8, k.val / 4 = h.num → s.written[k] = true := by
  cases h <;> simp [halfWritten, Half.num, Fin.forall_fin_succ, and_assoc]

theorem find?_cons_eq_ite {α : Type} (p : α → Bool) (a : α) (l : List α) :
    (a :: l).find? p = if p a then some a else l.find? p := by
  cases h : p a <;> simp [h]

/-- The tests in index order are a search for an unwritten word of the half (log 24). -/
theorem firstUnwritten_eq_find (s : State) (h : Half) :
    s.firstUnwritten h
      = ((List.finRange 8).find? fun k => k.val / 4 == h.num && !s.written[k]).map Fin.val := by
  cases h
  all_goals
    simp [State.firstUnwritten, List.finRange_succ, find?_cons_eq_ite, Half.num, apply_ite (Option.map Fin.val)]

theorem firstUnwritten_of_written {s : State} {h : Half} (hw : halfWritten s h = true) : s.firstUnwritten h = none := by
  rw [halfWritten_iff] at hw
  simpa [firstUnwritten_eq_find] using hw

theorem firstUnwritten_of_unwritten {s : State} {h : Half} (hw : halfWritten s h = false) :
    ∃ k : Fin 8, k.val / 4 = h.num ∧ s.written[k] = false ∧ s.firstUnwritten h = some k.val := by
  rw [← Bool.not_eq_true, halfWritten_iff] at hw
  push Not at hw
  obtain ⟨j, hj, hwj⟩ := hw
  cases hk : (List.finRange 8).find? fun k => k.val / 4 == h.num && !s.written[k] with
  | none =>
    have hnone := List.find?_eq_none.mp hk j (List.mem_finRange j)
    simp [hj, hwj] at hnone
  | some k =>
    have hsome := List.find?_some hk
    simp only [Bool.and_eq_true, beq_iff_eq, Bool.not_eq_true'] at hsome
    exact ⟨k, hsome.1, hsome.2, by rw [firstUnwritten_eq_find, hk]; rfl⟩

/-! ### SINC_DECIMATE -/

theorem sincOf_eq_sincValue (s : State) (h : Half) : s.sincOf h = sincValue s h := by
  rw [State.sincOf, sincValue, halfWords_eq_halfOf]
  exact sincSum_eq_closed ..

theorem consumeHalf_eq_zeroHalf (s : State) (h : Half) : s.consumeHalf h = { s with buf := zeroHalf s.buf h } := by
  rw [State.consumeHalf, sincResidue_eq_replicate, length_halfWords]
  cases h <;> rfl

/-- Settles O33: the loops' sum and what they leave of the words, or the first unwritten word. -/
theorem sincDecimateSumsAndConsumes : Obligations.SincDecimateSumsAndConsumes := by
  refine fun h s => ⟨fun hw => ?_, fun hw => ?_⟩
  · change execSincDecimate h s = _
    rw [execSincDecimate, firstUnwritten_of_written hw, consumeHalf_eq_zeroHalf, sincOf_eq_sincValue]
    rfl
  · obtain ⟨k, hk, hwk, hfirst⟩ := firstUnwritten_of_unwritten hw
    refine ⟨k, hk, hwk, ?_⟩
    change execSincDecimate h s = _
    rw [execSincDecimate, hfirst]

/-! ### FIR_STEP (`40_pipeline.md` R125, R126, R128) -/

theorem length_delayAfter {s : State} (h : s.delay.length = Config.firTaps) (x : Word) :
    (s.delayAfter x).length = Config.firTaps := by
  simp [State.delayAfter, firShift, h]

/-- The fold over the pairs of tap and entry is the fold over the tap indices, in the same order. -/
theorem firEval_eq_foldl_range {h d : List F32} (hlen : h.length = d.length) :
    firEval h d = (List.range h.length).foldl (fun acc j => fadd acc (fmul (h.getD j 0#32) (d.getD j 0#32))) 0#32 := by
  have hzip : h.zip d = (List.range h.length).map fun j => (h.getD j 0#32, d.getD j 0#32) := by
    refine List.ext_getElem (by simp [hlen]) fun j hj _ => ?_
    have hjh : j < h.length := by simp at hj; omega
    simp [hjh, hlen ▸ hjh]
  rw [firEval, hzip, List.foldl_map]

/-- Settles O36: the shift is read entry by entry, and the sum is over as many entries as there are taps. -/
theorem firStepShiftsAndSums : Obligations.FirStepShiftsAndSums := by
  intro x s hlen
  have hnew := length_delayAfter hlen x
  have hpos : 0 < Config.firTaps := by unfold Config.firTaps; omega
  refine ⟨_, rfl, rfl, hnew, ?_, fun j hj1 hj => ?_, ?_⟩
  · simp [State.delayAfter, firShift, hpos]
  · obtain ⟨i, rfl⟩ := Nat.exists_eq_add_of_le' hj1
    simp [State.delayAfter, firShift, hj]
  · have hsum := firEval_eq_foldl_range (length_firH.trans hnew.symm)
    rwa [length_firH] at hsum

theorem take_append_take {α : Type} (n : Nat) (a l : List α) : (a ++ l.take n).take n = (a ++ l).take n := by
  simp [List.take_append, List.take_take]

/-- After `n + 1` steps the newest entries are `n + 1` copies of the input, as far as the line is long. -/
theorem execAll_firSteps (x : Word) (n : Nat) (s : State) :
    ∃ t, execAll (List.replicate (n + 1) (.firStep x)) s = .next t
      ∧ t.delay = (List.replicate (n + 1) (f32OfNat x.toNat) ++ s.delay).take Config.firTaps
      ∧ t.ret = firEval firH t.delay := by
  induction n generalizing s with
  | zero => exact ⟨_, rfl, rfl, rfl⟩
  | succ n ih =>
    obtain ⟨t, hrun, hdelay, hret⟩ := ih ((s.firPush x).setRet (s.firOut x))
    refine ⟨t, hrun, ?_, hret⟩
    have hpush : ((s.firPush x).setRet (s.firOut x)).delay = (f32OfNat x.toNat :: s.delay).take Config.firTaps := rfl
    rw [hdelay, hpush, take_append_take, List.append_cons, ← List.replicate_succ']

/-- Settles O37: `FIR_TAPS` copies leave no place for the older entries. -/
theorem constantInputFillsTheDelayLine : Obligations.ConstantInputFillsTheDelayLine := by
  intro x s
  obtain ⟨t, hrun, hdelay, hret⟩ := execAll_firSteps x (2 * Config.firOrder) s
  have hconst : t.delay = List.replicate Config.firTaps (f32OfNat x.toNat) :=
    hdelay.trans (List.take_left' List.length_replicate)
  exact ⟨t, hrun, hconst, hconst ▸ hret⟩

/-! ### The two conversions (`40_pipeline.md` R127, R130) -/

/-- A magnitude that is a finite value's rounds to itself: no value is nearer to it than it is. -/
theorem f32Units_round_exact {neg : Bool} {c j : Nat} (hc : c < 2 ^ 24)
    (hfin : f32Finite (f32Round neg (c * 2 ^ j) 0) = true) :
    f32Units (f32Round neg (c * 2 ^ j) 0) = signedMag neg (c * 2 ^ j) := by
  have hnear := (roundDiv_nearest_value (m := c * 2 ^ j) (e := 0) (v := (c * 2 ^ j : Nat)) hc rfl).1
  have hunits := f32Units_round hfin
  rw [pow_zero, mul_one] at hunits
  rw [pow_zero, mul_one, sub_self, Int.natAbs_zero, Nat.le_zero, Int.natAbs_eq_zero, sub_eq_zero] at hnear
  rw [hunits]
  exact congrArg _ (by exact_mod_cast hnear)

theorem exists_significand {n : Nat} (h : n ≤ 2 ^ 24) : ∃ c j, c < 2 ^ 24 ∧ n * 2 ^ 149 = c * 2 ^ j := by
  rcases h.lt_or_eq with hlt | rfl
  · exact ⟨n, 149, hlt, rfl⟩
  · exact ⟨1, 173, by norm_num, by norm_num⟩

/-- Settles O38: up to 2^24 an integer has a significand of 24 bits. -/
theorem inputConversionIsExact : Obligations.InputConversionIsExact := by
  intro n hn
  have hfin : f32Finite (f32OfNat n) = true := by
    refine f32Finite_round_of_le false (k := 253) rfl ?_
    calc n * 2 ^ 149 ≤ 2 ^ 24 * 2 ^ 149 := Nat.mul_le_mul_right _ hn
      _ ≤ (2 ^ 24 - 1) * 2 ^ 253 := by norm_num
  obtain ⟨c, j, hc, hm⟩ := exists_significand hn
  refine ⟨hfin, ?_⟩
  rw [f32OfNat, hm] at hfin ⊢
  rw [f32Units_round_exact hc hfin, ← hm]
  simp [signedMag]

theorem toInt_ofNat16_of_le {t : Nat} (h : t ≤ 32767) : (BitVec.ofNat 16 t).toInt = t := by
  rw [BitVec.toInt_eq_toNat_bmod, BitVec.toNat_ofNat, Int.bmod_def]
  omega

theorem toInt_ofNat16_neg {t : Nat} (h : t ≤ 32768) : (BitVec.ofNat 16 (2 ^ 16 - t)).toInt = -t := by
  rw [BitVec.toInt_eq_toNat_bmod, BitVec.toNat_ofNat, Int.bmod_def]
  omega

/-- Truncation toward zero divides the magnitude and keeps the sign. -/
theorem tdiv_f32Units (y : F32) : (f32Units y).tdiv (2 ^ 149) = signedMag (f32Neg y) (f32Mag y / 2 ^ 149) := by
  rw [f32Units_eq_signedMag]
  have hdiv : ((f32Mag y : Nat) : Int).tdiv (2 ^ 149) = (f32Mag y / 2 ^ 149 : Nat) := by
    rw [Int.tdiv_eq_ediv_of_nonneg (Int.natCast_nonneg _)]
    push_cast
    rfl
  cases f32Neg y
  · exact hdiv
  · simp only [signedMag, if_true, Int.neg_tdiv, hdiv]

theorem toInt_pcmNarrow {y : F32} (h : f32Finite y = true) :
    (pcmNarrow y).toInt = max (-32768) (min 32767 (signedMag (f32Neg y) (f32Mag y / 2 ^ 149))) := by
  rw [pcmNarrow, if_pos h]
  generalize f32Mag y / 2 ^ 149 = t
  cases f32Neg y
  · simp only [Bool.false_eq_true, if_false, signedMag, toInt_ofNat16_of_le (Nat.min_le_right t 32767)]
    omega
  · simp only [if_true, signedMag, toInt_ofNat16_neg (Nat.min_le_right t 32768)]
    omega

/-- Settles O41: both sides are the truncated magnitude with its sign, clamped. -/
theorem pcmNarrowTruncatesAndSaturates : Obligations.PcmNarrowTruncatesAndSaturates :=
  fun y _ => ⟨fun hfin => by rw [toInt_pcmNarrow hfin, tdiv_f32Units], rfl⟩

/-! ### The pipeline in the sequencer's step (`40_pipeline.md` R132, `41_acquisition.md` R160) -/

@[simp] theorem State.pipeHalf_lastSinc (s : State) (h : Half) : (s.pipeHalf h).lastSinc = sincValue s h :=
  sincOf_eq_sincValue s h

theorem sampleOf_eq_sampleValue (s : State) (h : Half) : s.sampleOf h = sampleValue s h := by
  rw [State.sampleOf, sincOf_eq_sincValue, sampleValue]
  rfl

@[simp] theorem State.pipeHalf_lastPcm (s : State) (h : Half) : (s.pipeHalf h).lastPcm = sampleValue s h :=
  sampleOf_eq_sampleValue s h

@[simp] theorem State.pipeHalf_delay (s : State) (h : Half) :
    (s.pipeHalf h).delay = delayWith s (sincValue s h) := by
  rw [← sincOf_eq_sincValue]
  simp [State.pipeHalf, State.consumeHalf, State.firPush, State.delayAfter, delayWith, firShift]

@[simp] theorem State.pipeHalf_buf (s : State) (h : Half) : (s.pipeHalf h).buf = zeroHalf s.buf h := by
  simp [State.pipeHalf, consumeHalf_eq_zeroHalf]

theorem exec_seqProcess_of_enabled {s : State} (h : s.seqEnabled = true) :
    exec .seqProcess s = processHalf s.nextProc s := if_pos h

/-- Settles O29: the words are tested before anything is written, the memory when the sample is delivered. -/
theorem sequencerStopsOnBrokenDuties : Obligations.SequencerStopsOnBrokenDuties := by
  intro s harmed hpend
  have hen : s.seqEnabled = true := Bool.and_eq_true_iff.mpr ⟨harmed, hpend⟩
  rw [exec_seqProcess_of_enabled hen, processHalf]
  refine ⟨fun hw => ?_, fun hw hst hfit => ?_⟩
  · obtain ⟨k, hk, hwk, hfirst⟩ := firstUnwritten_of_unwritten hw
    exact ⟨k, hk, hwk, by rw [hfirst]⟩
  · rw [sampleFits] at hfit
    simp [firstUnwritten_of_written hw, hst, deliverSample, hfit]

/-- What the pipeline leaves: the closed forms of `40_pipeline.md` R132 on the state before the step. -/
structure PipelineLeaves (s : State) (h : Half) (t : State) : Prop where
  lastSinc : t.lastSinc = sincValue s h
  lastPcm : t.lastPcm = sampleValue s h
  delay : t.delay = delayWith s (sincValue s h)
  buf : t.buf = zeroHalf s.buf h
  nextProc : t.nextProc = h.other

theorem processHalf_pipelineLeaves {h : Half} {s t : State} (e : processHalf h s = .next t) :
    PipelineLeaves s h t := by
  obtain ⟨_, ⟨_, rfl⟩ | ⟨_, u, hdel, rfl⟩⟩ := processHalf_cases e
  · constructor <;> simp
  · obtain ⟨_, _, ⟨_, rfl⟩ | ⟨_, rfl⟩⟩ := deliverSample_cases hdel
    all_goals constructor <;> simp

theorem sincValue_congr {s t : State} (hbuf : s.buf = t.buf) (h : Half) : sincValue s h = sincValue t h := by
  simp only [sincValue, halfOf, hbuf]

theorem delayWith_congr {s t : State} (hdelay : s.delay = t.delay) (x : Word) : delayWith s x = delayWith t x := by
  simp only [delayWith, hdelay]

/-- Settles O43: each value the pipeline leaves is a function of the buffer, the delay line and the half. -/
theorem pipelineIgnoresHostState : Obligations.PipelineIgnoresHostState := by
  intro s t s' t' hs ht hbuf hdelay hproc es et
  rw [exec_seqProcess_of_enabled hs, hproc] at es
  rw [exec_seqProcess_of_enabled ht] at et
  have leaves_s := processHalf_pipelineLeaves es
  have leaves_t := processHalf_pipelineLeaves et
  have hsum := sincValue_congr hbuf t.nextProc
  have hline := delayWith_congr hdelay (sincValue t t.nextProc)
  have hpcm : sampleValue s t.nextProc = sampleValue t t.nextProc := by rw [sampleValue, sampleValue, hsum, hline]
  refine ⟨?_, ?_, ?_, ?_, leaves_s.nextProc.trans leaves_t.nextProc.symm⟩
  · rw [leaves_s.lastSinc, leaves_t.lastSinc, hsum]
  · rw [leaves_s.lastPcm, leaves_t.lastPcm, hpcm]
  · rw [leaves_s.delay, leaves_t.delay, hsum, hline]
  · rw [leaves_s.buf, leaves_t.buf, hbuf]

end Sys2Proof.Machine

/-! PROOFS for `41_acquisition.md`: the producer's inputs (O18, O19, O20, O22, O25), inputs presented together (O55),
the sequencer's step (O26, O27, O28), and what a step does to NEXT_PROC (O48) and BUF (O49). The sequencer's next state
is read once in closed form (`returnHalf_pipeHalf`); a delivery commutes with giving the half back, so a capture only
stores on top of it. -/

namespace Sys2Proof.Machine

/-! ### Producer inputs (`41_acquisition.md` R150 to R157) -/

theorem acceptHalf_of_outOfTurn {h : Half} {s : State} (hevt : s.nextEvt ≠ h) :
    acceptHalf h s = .next (s.faultEntry .sequence h) := if_pos hevt.symm

theorem acceptHalf_of_owned {h : Half} {s : State} (hevt : s.nextEvt = h) (hown : s.own h = true) :
    acceptHalf h s = .next (s.faultEntry .overrunDetected h) := by
  rw [acceptHalf, if_neg (not_not.mpr hevt.symm), if_pos hown, raiseFault]

theorem acceptHalf_of_free {h : Half} {s : State} (hevt : s.nextEvt = h) (hown : s.own h = false) :
    acceptHalf h s = .next (s.takeHalf h) := by
  rw [acceptHalf, if_neg (not_not.mpr hevt.symm), if_neg (ne_true_of_eq_false hown)]

section Armed

variable {s : State} (harmed : s.armed = true)
include harmed

theorem exec_evtHalf_of_armed : exec .evtHalf s = acceptHalf .first s := whileArmed_of_armed harmed _

theorem exec_evtFull_of_armed : exec .evtFull s = acceptHalf .second s := whileArmed_of_armed harmed _

theorem exec_pdmWr_of_armed (idx : BitVec 3) (data : Word16) :
    exec (.pdmWr idx data) s
      = if s.own (halfOfIndex idx.toNat) = true then
          .next (s.faultEntry .overrunDetected (halfOfIndex idx.toNat))
        else .next (s.putWord idx data) := whileArmed_of_armed harmed _

end Armed

/-- Bit 2 of an index and the index's comparison with 4 name the same half (`30_encoding.md` R100). -/
theorem ofBit_eq_halfOfIndex : ∀ idx : BitVec 3, Half.ofBit (idx.extractLsb' 2 1) = halfOfIndex idx.toNat := by decide

/-- Settles O22: the meaning of each producer input is guarded by `whileArmed`. -/
theorem disarmedBlockIgnoresTheProducer : Obligations.DisarmedBlockIgnoresTheProducer := by
  intro i s hi hdisarmed
  cases i <;> simp only [isProducer, Bool.false_eq_true] at hi
  all_goals exact whileArmed_of_disarmed hdisarmed _

/-- Settles O18: the order of the events is tested before the half's owner. -/
theorem halfEventsAlternate : Obligations.HalfEventsAlternate := by
  have hignored := disarmedBlockIgnoresTheProducer
  refine fun s => ⟨fun hdisarmed => ⟨hignored _ s rfl hdisarmed, hignored _ s rfl hdisarmed⟩,
    fun harmed hevt => ?_, fun harmed hevt => ?_⟩
  all_goals
    rw [exec_evtHalf_of_armed harmed, exec_evtFull_of_armed harmed]
    exact ⟨acceptHalf_of_free hevt, acceptHalf_of_owned hevt, acceptHalf_of_outOfTurn (by simp [hevt])⟩

/-- Settles O19. -/
theorem pdmWriteFillsTheProducersHalf : Obligations.PdmWriteFillsTheProducersHalf := by
  intro s idx data
  rw [ofBit_eq_halfOfIndex]
  refine ⟨disarmedBlockIgnoresTheProducer _ s rfl, fun harmed hown => ?_, fun harmed hown => ?_⟩
  · rw [exec_pdmWr_of_armed harmed, if_neg (ne_true_of_eq_false hown), State.putWord]
  · rw [exec_pdmWr_of_armed harmed, if_pos hown]

/-- Settles O20. -/
theorem errorEventsStopTheBlock : Obligations.ErrorEventsStopTheBlock := fun s =>
  ⟨fun harmed => ⟨whileArmed_of_armed harmed _, whileArmed_of_armed harmed _⟩,
    fun hdisarmed => ⟨disarmedBlockIgnoresTheProducer _ s rfl hdisarmed,
      disarmedBlockIgnoresTheProducer _ s rfl hdisarmed⟩⟩

/-- Settles O25: fault entry, ACCEPT and a stored word write none of these fields. -/
theorem producerInputsKeepHostState : Obligations.ProducerInputsKeepHostState := by
  intro i s t hi e
  rcases producer_cases hi e with rfl | ⟨_, c, h, _, _, rfl⟩ | ⟨_, h, _, _, rfl⟩ | ⟨_, idx, data, _, _, rfl⟩
  all_goals simp

/-! ### Inputs presented together (`41_acquisition.md` R156) -/

theorem isErrorCode_iff {c : BitVec 4} : isErrorCode c = true ↔ c ≠ 0x1#4 ∧ c ≠ 0x2#4 := by simp [isErrorCode]

theorem arbitrateEvents_of_error {codes : List (BitVec 4)} {c : BitVec 4} (h : codes.find? isErrorCode = some c) :
    arbitrateEvents codes = [c] := by simp only [arbitrateEvents, h]

theorem arbitrateEvents_of_no_error {codes : List (BitVec 4)} (h : codes.find? isErrorCode = none) :
    arbitrateEvents codes = codes := by simp only [arbitrateEvents, h]

/-- The write stands before the one event that is taken. -/
theorem step_of_together {s : State} {write : Option (BitVec 19)} {codes : List (BitVec 4)} {c : BitVec 4}
    {rest : List Input} (hin : s.inputs = .together write codes :: rest) (hevent : arbitrateEvents codes = [c]) :
    step s = .next (s.setInputs (write.toList.map .pdmWrite ++ .event c :: rest)) := by
  rw [step_of_inputs hin]
  change Host.Outcome.next (s.setInputs (arbitrate write codes ++ rest)) = _
  simp only [arbitrate, hevent]
  cases write <;> rfl

/-- Settles O55: of a half event and an error event, only the error event passes `isErrorCode`. -/
theorem simultaneousProducerInputsAreOrdered : Obligations.SimultaneousProducerInputsAreOrdered := by
  intro s write codes h e rest hin hhalf he1 he2
  have hnot : isErrorCode h = false := by rcases hhalf with rfl | rfl <;> rfl
  have herr : isErrorCode e = true := isErrorCode_iff.mpr ⟨he1, he2⟩
  refine ⟨fun hcodes => ?_, fun hcodes => ?_⟩
  · have hevent : arbitrateEvents codes = [h] := by
      rw [arbitrateEvents_of_no_error (by simp [hcodes, hnot]), hcodes]
    rw [step_of_together hin hevent]
    cases write <;> rfl
  · have hevent : arbitrateEvents codes = [e] :=
      arbitrateEvents_of_error (by rcases hcodes with rfl | rfl | rfl <;> simp [hnot, herr])
    rw [step_of_together hin hevent]
    cases write <;> rfl

/-! ### SEQ_PROCESS (`41_acquisition.md` R160, R161) -/

theorem seqEnabled_iff {s : State} : s.seqEnabled = true ↔ s.armed = true ∧ s.pend s.nextProc = true :=
  Bool.and_eq_true_iff

theorem exec_seqProcess_of_disabled {s : State} (h : s.seqEnabled = false) : exec .seqProcess s = .next s :=
  if_neg (ne_true_of_eq_false h)

/-- Settles O26. -/
theorem disabledSequencerTurnChangesNothing : Obligations.DisabledSequencerTurnChangesNothing := fun _ h =>
  exec_seqProcess_of_disabled (Bool.and_eq_false_iff.mpr h)

theorem clearWritten_eq_unwriteHalf (s : State) (h : Half) :
    s.clearWritten h = { s with written := unwriteHalf s.written h } := by
  cases h <;> rfl

theorem firPush_consumeHalf (s : State) (h : Half) (x : Word) :
    (s.consumeHalf h).firPush x = { s with buf := zeroHalf s.buf h, delay := delayWith s x } := by
  rw [consumeHalf_eq_zeroHalf]
  rfl

/-- What the sequencer's step leaves, by the closed forms of `40_pipeline.md` R120, R125 and R132. -/
theorem returnHalf_pipeHalf (s : State) (h : Half) : (s.pipeHalf h).returnHalf h = seqLeaves s h := by
  rw [State.pipeHalf, sincOf_eq_sincValue, sampleOf_eq_sampleValue, firPush_consumeHalf, clearWritten_eq_unwriteHalf]
  unfold seqLeaves
  generalize delayWith s (sincValue s h) = line, sincValue s h = sum, sampleValue s h = sample
  cases h <;> rfl

@[simp] theorem State.pipeHalf_cursor (s : State) (h : Half) : (s.pipeHalf h).cursor = s.cursor := by
  simp [State.pipeHalf, State.consumeHalf]

@[simp] theorem State.pipeHalf_destLen (s : State) (h : Half) : (s.pipeHalf h).destLen = s.destLen := by
  simp [State.pipeHalf, State.consumeHalf]

theorem returnHalf_storeSample (s : State) (h : Half) (p : Word16) :
    (s.storeSample p).returnHalf h = (s.returnHalf h).storeSample p := by
  cases h <;> rfl

theorem returnHalf_endCapture (s : State) (h : Half) : s.endCapture.returnHalf h = (s.returnHalf h).endCapture := by
  cases h <;> rfl

theorem deliverSample_of_fits {s : State} (hfit : sampleFits s.sampleAddr = true) (p : Word16) :
    deliverSample p s
      = .next (if s.cursor + 1#32 = s.destLen then (s.storeSample p).endCapture else s.storeSample p) := if_pos hfit

section WrittenHalf

variable {s : State} {h : Half} (hw : halfWritten s h = true)
include hw

theorem processHalf_of_not_capturing (hst : s.st ≠ .capturing) : processHalf h s = .next (seqLeaves s h) := by
  have hnot : ¬ s.inProgress = true := mt s.inProgress_iff.mp hst
  simp only [processHalf, firstUnwritten_of_written hw, if_neg hnot, andThen_next, returnHalf_pipeHalf]

theorem processHalf_of_capturing (hst : s.st = .capturing) (hfit : sampleFits s.sampleAddr = true) :
    processHalf h s
      = .next (if s.cursor + 1#32 = s.destLen then ((seqLeaves s h).storeSample (sampleValue s h)).endCapture
          else (seqLeaves s h).storeSample (sampleValue s h)) := by
  have hcap : s.inProgress = true := s.inProgress_iff.mpr hst
  have hfit' : sampleFits (s.pipeHalf h).sampleAddr = true := by rwa [State.pipeHalf_sampleAddr]
  simp only [processHalf, firstUnwritten_of_written hw, if_pos hcap, deliverSample_of_fits hfit', andThen_next,
    sampleOf_eq_sampleValue, apply_ite (State.returnHalf · h), returnHalf_endCapture, returnHalf_storeSample,
    returnHalf_pipeHalf, State.pipeHalf_cursor, State.pipeHalf_destLen]

end WrittenHalf

/-- Settles O27. -/
theorem sequencerProcessesTheNextHalf : Obligations.SequencerProcessesTheNextHalf := by
  intro s harmed hpend hw hst
  rw [exec_seqProcess_of_enabled (seqEnabled_iff.mpr ⟨harmed, hpend⟩), processHalf_of_not_capturing hw hst]

/-- Settles O28: the sample is stored, and the capture ended, on top of what the sequencer leaves anyway. -/
theorem sequencerDeliversInACapture : Obligations.SequencerDeliversInACapture := by
  intro s harmed hpend hw hst hfit
  rw [exec_seqProcess_of_enabled (seqEnabled_iff.mpr ⟨harmed, hpend⟩), processHalf_of_capturing hw hst hfit]
  refine ⟨fun hmore => ?_, fun hlast => ?_⟩
  · rw [if_neg hmore]
    rfl
  · rw [if_pos hlast]
    rfl

/-! ### What a step does to NEXT_PROC and BUF (`41_acquisition.md` R162, R163) -/

theorem Input.instr?_eq_some {inp : Input} {i : Instr} (h : inp.instr? = some i) :
    ∃ p bytes, inp.carried = some (p, bytes) ∧ decodeBytes p bytes = .ok i := by
  unfold Input.instr? at h
  split at h
  · cases h
  · split at h <;> cases h
    exact ⟨_, _, ‹_›, ‹_›⟩

/-- The step that runs an instruction is that instruction's meaning, with the input taken from the schedule. -/
theorem step_of_nextInstr {s : State} {i : Instr} (h : s.nextInstr = some i) :
    ∃ l, step s = exec i (s.setInputs l) := by
  unfold State.nextInstr at h
  split at h
  · cases h
  have hrst : s.rst = false := eq_false_of_ne_true ‹_›
  split at h
  next hin =>
    cases h
    refine ⟨s.inputs, ?_⟩
    rw [step_of_no_inputs hin, runInput_of_carried rfl, runBytes_of_decode hrst rfl]
    rfl
  next inp rest hin =>
    obtain ⟨p, bytes, hcar, hdec⟩ := Input.instr?_eq_some h
    refine ⟨rest, ?_⟩
    rw [step_of_inputs hin, runInput_of_carried hcar, runBytes_of_decode (s := s.setInputs rest) hrst hdec]

theorem CommandEffect.nextProc_cases {i : Instr} {s t : State} (e : CommandEffect s i t) :
    t.nextProc = s.nextProc ∨ ((i = .configure ∨ i = .deinit) ∧ t.nextProc = .first) := by
  cases e with
  | configured _ => exact .inr ⟨.inl rfl, rfl⟩
  | deinitialized => exact .inr ⟨.inr rfl, rfl⟩
  | _ => exact .inl rfl

/-- Only a CONFIGURE that succeeds draws BUF anew, and it succeeds only in Uninitialized. -/
theorem CommandEffect.buf_eq {i : Instr} {s t : State} (e : CommandEffect s i t) (hst : s.st ≠ .uninitialized) :
    t.buf = s.buf := by
  cases e with
  | configured hun => exact absurd hun hst
  | _ => rfl

theorem InputEffect.halves_eq {s t : State} (e : InputEffect s t) : t.nextProc = s.nextProc ∧ t.buf = s.buf := by
  cases e <;> exact ⟨rfl, rfl⟩

theorem producer_halves {i : Instr} {s t : State} (hi : isProducer i = true) (e : exec i s = .next t) :
    t.nextProc = s.nextProc ∧ (t.buf = s.buf ∨ ∃ idx data, i = .pdmWr idx data
      ∧ s.own (halfOfIndex idx.toNat) = false ∧ t.buf = s.buf.set idx.toNat data idx.isLt) := by
  rcases producer_cases hi e with rfl | ⟨_, c, h, _, _, rfl⟩ | ⟨_, h, _, _, rfl⟩ | ⟨_, idx, data, hpdm, hown, rfl⟩
  case inr.inr.inr => exact ⟨rfl, .inr ⟨idx, data, hpdm, hown, rfl⟩⟩
  all_goals simp

theorem execSeqProcess_halves {s t : State} (e : exec .seqProcess s = .next t) :
    (s.seqEnabled = false ∧ t = s) ∨
    (s.seqEnabled = true ∧ t.nextProc = s.nextProc.other ∧ t.buf = zeroHalf s.buf s.nextProc) := by
  rcases execSeqProcess_cases e with hdis | ⟨hen, e⟩
  · exact .inl hdis
  · have hleaves := processHalf_pipelineLeaves e
    exact .inr ⟨hen, hleaves.nextProc, hleaves.buf⟩

/-- Settles O48. -/
theorem halvesAreProcessedInAlternation : Obligations.HalvesAreProcessedInAlternation := by
  refine fun s t e => ⟨fun hnext hen => ?_, fun hchanged => ?_⟩
  · obtain ⟨l, hstep⟩ := step_of_nextInstr hnext
    rcases execSeqProcess_halves (hstep.symm.trans e) with ⟨hdis, _⟩ | ⟨_, hproc, _⟩
    · exact nomatch hen.symm.trans hdis
    · exact hproc
  cases step_effect e with
  | instr l i hnext _ hi hexec =>
    rcases hi with hi | hi | rfl
    · rcases (exec_command_effect hi hexec).nextProc_cases with hsame | ⟨rfl | rfl, hfirst⟩
      · exact absurd hsame hchanged
      · exact .inr ⟨.inl hnext, hfirst⟩
      · exact .inr ⟨.inr (.inl hnext), hfirst⟩
    · obtain ⟨hsame, _⟩ := producer_halves hi hexec
      exact absurd hsame hchanged
    · rcases execSeqProcess_halves hexec with ⟨_, rfl⟩ | ⟨hen, _⟩
      · exact absurd rfl hchanged
      · exact .inl ⟨hnext, hen⟩
  | input l heff =>
    obtain ⟨hsame, _⟩ := heff.halves_eq
    exact absurd hsame hchanged
  | reset l hr ht => exact .inr ⟨.inr (.inr hr), by rw [ht]; rfl⟩

theorem halfOfIndex_eq_iff (k : Fin 8) (h : Half) : halfOfIndex k.val = h ↔ k.val / 4 = h.num := by
  cases h <;> revert k <;> decide

theorem getElem_zeroHalf (b : Vector Word16 8) (h : Half) (k : Fin 8) :
    (zeroHalf b h)[k] = if halfOfIndex k.val = h then 0#16 else b[k] := by
  simp [zeroHalf, halfOfIndex_eq_iff]

/-- Settles O49: the owner of NEXT_PROC's half is the sequencer by the invariant. -/
theorem halvesAreExclusivelyOwned : Obligations.HalvesAreExclusivelyOwned := by
  intro s t hs e harmed hreset k hchanged
  have hst : s.st ≠ .uninitialized := by rcases hs.armed_iff.mp harmed with h | h <;> simp [h]
  have hdiff : t.buf ≠ s.buf := fun h => hchanged (by rw [h])
  cases step_effect e with
  | instr l i hnext _ hi hexec =>
    rcases hi with hi | hi | rfl
    · exact absurd ((exec_command_effect hi hexec).buf_eq hst) hdiff
    · obtain ⟨_, hsame | ⟨idx, data, rfl, hown, hbuf⟩⟩ := producer_halves hi hexec
      · exact absurd hsame hdiff
      · have hk : idx.toNat = k.val := by
          by_contra hne
          exact hchanged (by simp [hbuf, hne])
        exact .inl ⟨idx, data, hnext, hk.symm, by simp [hbuf, hk], hk ▸ hown⟩
    · rcases execSeqProcess_halves hexec with ⟨_, rfl⟩ | ⟨hen, _, hbuf⟩
      · exact absurd rfl hdiff
      · have hword : t.buf[k] = if halfOfIndex k.val = s.nextProc then 0#16 else s.buf[k] := by
          rw [hbuf]
          exact getElem_zeroHalf _ _ _
        by_cases hk : halfOfIndex k.val = s.nextProc
        · rw [if_pos hk] at hword
          have hown : s.own s.nextProc = true := (hs.own_eq_pend _).trans (seqEnabled_iff.mp hen).2
          exact .inr ⟨hnext, hk, hk ▸ hown, hword⟩
        · exact absurd (hword.trans (if_neg hk)) hchanged
  | input l heff =>
    obtain ⟨_, hsame⟩ := heff.halves_eq
    exact absurd hsame hdiff
  | reset l hr _ => exact nomatch hreset.symm.trans hr

end Sys2Proof.Machine

/-! PROOFS for `42_stream.md`: START (O16), CANCEL (O17), ON_SAMPLE (O30), COMPLETE (O31), a whole capture (O32) and the
deferred queue (O56). A capture is read in closed form: the deliveries left leave what `Memory.writeSamples` writes and
the end of the capture (`execAll_onSamples`), by induction on the samples still to come. -/

namespace Sys2Proof.Machine

/-! ### START (`42_stream.md` R180, R181, R183) -/

theorem destOk_iff {addr len : Word} :
    destOk addr len = true ↔ addr.toNat % 2 = 0 ∧ addr.toNat + 2 * len.toNat ≤ 2 ^ 32 := by
  have hbit : addr.getLsbD 0 = decide (addr.toNat % 2 = 1) := Nat.testBit_zero addr.toNat
  rw [destOk, Bool.and_eq_true, decide_eq_true_iff, destEnd, hbit, Bool.not_eq_true', decide_eq_false_iff_not,
    Nat.mod_two_not_eq_one]

theorem exec_start_of_badState {s : State} (h : s.st = .uninitialized ∨ s.st = .stopped) :
    exec .start s = .next (s.setResult .badState .none) := if_pos h

theorem exec_start_of_capturing {s : State} (h : s.st = .capturing) :
    exec .start s = .next (s.setResult .alreadyInProgress .none) := by
  change execStart s = _
  simp [execStart, h]

/-- In Configured the operands decide. -/
theorem exec_start_of_configured {s : State} (hst : s.st = .configured) :
    exec .start s
      = if s.arg2 = 0#32 then .next (s.setResult .invalidCallback .none)
        else if s.arg1 = 0#32 then .next s.startEmpty
        else if destOk s.arg0 s.arg1 = true then .next s.armCapture
        else .next (s.setResult .badDest .none) := by
  change execStart s = _
  have hcb : (!invocable s.arg2) = true ↔ s.arg2 = 0#32 := by simp [invocable]
  have hdest : (!destOk s.arg0 s.arg1) = true ↔ ¬destOk s.arg0 s.arg1 = true := by simp
  simp only [execStart, hst, reduceCtorEq, or_self, if_false, hcb, hdest, ite_not]

theorem exec_start_of_destOk {s : State} (hst : s.st = .configured) (hcb : s.arg2 ≠ 0#32) (hlen : s.arg1 ≠ 0#32)
    (hdest : destOk s.arg0 s.arg1 = true) : exec .start s = .next s.armCapture := by
  rw [exec_start_of_configured hst, if_neg hcb, if_neg hlen, if_pos hdest]

/-- Settles O16: the destination's two faults are the two ways `destOk` fails. -/
theorem startFollowsItsChecks : Obligations.StartFollowsItsChecks := by
  refine fun s => ⟨exec_start_of_badState, exec_start_of_capturing, fun hst hcb => ?_, fun hst hcb hlen => ?_,
    fun hst hcb hlen hbad => ?_, fun hst hcb hlen heven hroom =>
      exec_start_of_destOk hst hcb hlen (destOk_iff.mpr ⟨heven, hroom⟩)⟩
  all_goals rw [exec_start_of_configured hst]
  · rw [if_pos hcb, State.setResult]
  · rw [if_neg hcb, if_pos hlen]
    rfl
  · have hdest : ¬destOk s.arg0 s.arg1 = true := by
      rw [destOk_iff]
      omega
    rw [if_neg hcb, if_neg hlen, if_neg hdest, State.setResult]

/-! ### CANCEL (`42_stream.md` R188) -/

/-- Settles O17. -/
theorem cancelEndsACaptureSilently : Obligations.CancelEndsACaptureSilently := by
  refine fun s => ⟨fun hst => ?_, fun hst => ?_⟩
  all_goals change execCancel s = _
  · rw [execCancel, if_pos (s.inProgress_iff.mpr hst), State.setResult]
  · rw [execCancel, if_neg (mt s.inProgress_iff.mp hst), State.setResult]

/-! ### ON_SAMPLE and COMPLETE (`42_stream.md` R184, R185) -/

theorem exec_onSample_of_refused {s : State} (hfit : sampleFits s.sampleAddr = false) (p : Word16) :
    exec (.onSample p) s = .fault (.sampleWriteRefused s.sampleAddr) := if_neg (ne_true_of_eq_false hfit)

theorem exec_onSample_of_fits {s : State} (hfit : sampleFits s.sampleAddr = true) (p : Word16) :
    exec (.onSample p) s
      = .next (if s.cursor + 1#32 = s.destLen then (s.storeSample p).endCapture else s.storeSample p) :=
  deliverSample_of_fits hfit p

/-- Settles O30: full or not, the memory left is that of the one sample write. -/
theorem onSampleStoresAndCompletes : Obligations.OnSampleStoresAndCompletes := by
  refine fun p s => ⟨fun hfit => exec_onSample_of_refused hfit p, fun hfit => ?_⟩
  have hexec := exec_onSample_of_fits (s := s) hfit p
  have hmem := deliverSample_mem hexec
  refine ⟨_, hexec, ?_, ?_, fun a hlow hhigh => ?_, fun hmore => ?_, fun hlast => ?_⟩
  · rw [hmem]
    exact Memory.readByte_writeSample_low ..
  · rw [hmem]
    exact Memory.readByte_writeSample_high ..
  · rw [hmem]
    exact Memory.readByte_writeSample_of_ne _ _ hlow hhigh
  · rw [if_neg hmore]
    rfl
  · rw [if_pos hlast]
    rfl

/-- Settles O31. -/
theorem completeSubmitsTheRequest : Obligations.CompleteSubmitsTheRequest := fun _ => rfl

/-! ### Samples one after the other in memory (`20_memory.md` R63) -/

/-- The memory with samples written in order from an address on. -/
def Memory.writeSamples (m : Memory) (a : Nat) : List Word16 → Memory
  | [] => m
  | p :: ps => Memory.writeSamples (Memory.writeSample m a p) (a + 2) ps

theorem Memory.readByte_writeSamples_of_outside {m : Memory} {a x : Nat} {ps : List Word16}
    (h : x < a ∨ a + 2 * ps.length ≤ x) :
    Memory.readByte (Memory.writeSamples m a ps) x = Memory.readByte m x := by
  induction ps generalizing m a with
  | nil => rfl
  | cons p ps ih =>
    rw [List.length_cons] at h
    rw [Memory.writeSamples, ih (by omega), Memory.readByte_writeSample_of_ne _ _ (by omega) (by omega)]

/-- A sample depends on its two bytes only. -/
theorem Memory.readSample_congr {m m' : Memory} {a : Nat} (hlow : Memory.readByte m a = Memory.readByte m' a)
    (hhigh : Memory.readByte m (a + 1) = Memory.readByte m' (a + 1)) :
    Memory.readSample m a = Memory.readSample m' a := by
  rw [Memory.readSample, Memory.readSample, hlow, hhigh]

theorem Memory.readSample_writeSample_self (m : Memory) (a : Nat) (v : Word16) :
    Memory.readSample (Memory.writeSample m a v) a = some v := by
  rw [Memory.readSample, Memory.readByte_writeSample_low, Memory.readByte_writeSample_high]
  exact congrArg some (extractLsb'_append_self (m := 8) (n := 8) v)

theorem Memory.readSample_writeSamples (m : Memory) (a : Nat) (ps : List Word16) (i : Nat) (hi : i < ps.length) :
    Memory.readSample (Memory.writeSamples m a ps) (a + 2 * i) = some ps[i] := by
  induction ps generalizing m a i with
  | nil => cases hi
  | cons p ps ih =>
    cases i with
    | zero =>
      calc Memory.readSample (Memory.writeSamples (Memory.writeSample m a p) (a + 2) ps) a
        _ = Memory.readSample (Memory.writeSample m a p) a :=
          Memory.readSample_congr (Memory.readByte_writeSamples_of_outside (by omega))
            (Memory.readByte_writeSamples_of_outside (by omega))
        _ = some p := Memory.readSample_writeSample_self m a p
    | succ i =>
      have haddr : a + 2 * (i + 1) = a + 2 + 2 * i := by omega
      rw [haddr]
      exact ih (Memory.writeSample m a p) (a + 2) i (Nat.lt_of_succ_lt_succ hi)

/-! ### A whole capture (`42_stream.md` R187) -/

theorem State.sampleAddr_storeSample {s : State} (h : s.cursor.toNat + 1 < 2 ^ 32) (p : Word16) :
    (s.storeSample p).sampleAddr = s.sampleAddr + 2 := by
  have hcursor : (s.cursor + 1#32).toNat = s.cursor.toNat + 1 := by
    rw [BitVec.toNat_add]
    exact Nat.mod_eq_of_lt h
  simp only [State.sampleAddr, State.storeSample_destAddr, State.storeSample_cursor, hcursor]
  omega

/-- The deliveries that fill the destination from the cursor on: every sample is written and the capture ends. -/
theorem execAll_onSamples {s : State} {ps : List Word16} (hne : ps ≠ [])
    (hlen : s.cursor.toNat + ps.length = s.destLen.toNat)
    (hacc : ∀ k, k < 2 * ps.length → memAccepts (s.sampleAddr + k) = true) :
    execAll (ps.map Instr.onSample) s
      = .next (State.endCapture { s with mem := Memory.writeSamples s.mem s.sampleAddr ps }) := by
  induction ps generalizing s with
  | nil => exact absurd rfl hne
  | cons p ps ih =>
    rw [List.length_cons] at hlen hacc
    have hfit : sampleFits s.sampleAddr = true :=
      Bool.and_eq_true_iff.mpr ⟨hacc 0 (by omega), hacc 1 (by omega)⟩
    have hfull : s.cursor + 1#32 = s.destLen ↔ ps = [] := by
      rw [← List.length_eq_zero_iff]
      bv_omega
    rw [List.map_cons, execAll, exec_onSample_of_fits hfit, andThen_next]
    by_cases hlast : ps = []
    · subst ps
      rw [if_pos (hfull.mpr rfl)]
      rfl
    · have hpos := List.length_pos_iff.mpr hlast
      have hroom : s.cursor.toNat + 1 < 2 ^ 32 := by have := s.destLen.isLt; omega
      have haddr := State.sampleAddr_storeSample hroom p
      rw [if_neg (mt hfull.mp hlast), ih hlast, haddr]
      · rfl
      · rw [State.storeSample_cursor, State.storeSample_destLen]
        bv_omega
      · intro k hk
        rw [haddr, Nat.add_assoc]
        exact hacc (2 + k) (by omega)

/-- Settles O32: START arms with the cursor at 0, so the deliveries fill the destination from ARG0 on. -/
theorem captureOfLengthLIsComplete : Obligations.CaptureOfLengthLIsComplete := by
  intro s ps hst hcb hne hlen heven hroom hacc
  have hpos := List.length_pos_iff.mpr hne
  have hlen0 : s.arg1 ≠ 0#32 := by bv_omega
  have hfull : s.armCapture.cursor.toNat + ps.length = s.armCapture.destLen.toNat := (Nat.zero_add _).trans hlen
  have hrun : execAll (.start :: ps.map Instr.onSample) s
      = .next (State.endCapture { s.armCapture with mem := Memory.writeSamples s.mem s.arg0.toNat ps }) := by
    rw [execAll, exec_start_of_destOk hst hcb hlen0 (destOk_iff.mpr ⟨heven, hroom⟩), andThen_next]
    exact execAll_onSamples hne hfull hacc
  exact ⟨_, hrun, Memory.readSample_writeSamples s.mem s.arg0.toNat ps,
    fun _ => Memory.readByte_writeSamples_of_outside, rfl⟩

/-! ### The deferred queue (`42_stream.md` R186) -/

theorem step_of_runQueue {s : State} {rest : List Input} (hin : s.inputs = .runQueue :: rest) :
    step s = .next (s.setInputs rest).runOldest := step_of_inputs hin

/-- Settles O56. -/
theorem queueRunsRequestsOnceInOrder : Obligations.QueueRunsRequestsOnceInOrder := by
  refine fun s rest hin => ⟨fun hleft => ?_, fun hdone => ?_⟩
  all_goals rw [step_of_runQueue hin, State.runOldest]
  · rw [State.setInputs_queueRun, State.setInputs_submitted, if_pos hleft]
    rfl
  · rw [State.setInputs_queueRun, State.setInputs_submitted, if_neg hdone.not_gt]
    rfl

end Sys2Proof.Machine

/-! PROOFS for `43_controller.md`: CONFIGURE (O12, O13), REGISTER_CALLBACK (O14), DEINIT (O15) and the lifecycle of STATE
(O44). CONFIGURE is read once per check; for the lifecycle, what each agent does to STATE is said once
(`CommandEffect.st_cases`, `producer_st_cases`, `execSeqProcess_st_cases`), and a step is one of these or a reset. -/

namespace Sys2Proof.Machine

/-! ### CONFIGURE (`43_controller.md` R200, R201) -/

theorem exec_configure_of_initialized {s : State} (hst : s.st ≠ .uninitialized) :
    exec .configure s = .next (s.setResult .badState .none) := by
  change Host.Outcome.next s.configureResult = _
  rw [State.configureResult, if_pos hst]

theorem exec_configure_of_illegalRate {s : State} (hst : s.st = .uninitialized) (hrate : rateOk s.arg0 = false) :
    exec .configure s = .next (s.setResult .configError .badRate) := by
  change Host.Outcome.next s.configureResult = _
  rw [State.configureResult, if_neg (not_not.mpr hst), if_pos (by simp [hrate])]

/-- With the parameters of `00_scope.md` R9 the table check of R201 passes, so the binding decides. -/
theorem exec_configure_of_legalRate {s : State} (hst : s.st = .uninitialized) (hrate : rateOk s.arg0 = true) :
    exec .configure s = .next s.bindAndArm := by
  have hlegal : ¬(!rateOk s.arg0) = true := by simp [hrate]
  have htable : ¬Config.wordBits * Config.halfWords ≠ Config.sincTaps := by decide
  change Host.Outcome.next s.configureResult = _
  rw [State.configureResult, if_neg (not_not.mpr hst), if_neg hlegal, if_neg htable]

/-- Settles O12. -/
theorem configureArmsTheBlock : Obligations.ConfigureArmsTheBlock := by
  intro s hst hrate hbinding
  rw [exec_configure_of_legalRate hst hrate, State.bindAndArm, hbinding]
  rfl

/-- Settles O13: each cause of the binding is one branch of `State.bindAndArm`. -/
theorem configureFailuresWriteOnlyTheResult : Obligations.ConfigureFailuresWriteOnlyTheResult := by
  refine fun s => ⟨exec_configure_of_initialized, fun hst hfail => ?_⟩
  cases hrate : rateOk s.arg0 with
  | false =>
    rw [exec_configure_of_illegalRate hst hrate]
    rfl
  | true =>
    have hbinding : s.binding ≠ .ok := hfail.resolve_left (by simp [hrate])
    rw [exec_configure_of_legalRate hst hrate, State.bindAndArm]
    cases hb : s.binding with
    | ok => exact absurd hb hbinding
    | clockFail | bindFail | armFail => rfl

/-! ### REGISTER_CALLBACK (`43_controller.md` R202, R203) -/

theorem exec_registerCallback_of_uninitialized {s : State} (hst : s.st = .uninitialized) :
    exec .registerCallback s = .next (s.setResult .badState .none) := if_pos hst

/-- Once the block is configured the handle decides. -/
theorem exec_registerCallback_of_initialized {s : State} (hst : s.st ≠ .uninitialized) :
    exec .registerCallback s
      = if s.arg0 = 0#32 then .next (s.setResult .invalidCallback .none)
        else .next (State.setResult { s with cb := s.arg0 } .ok .none) := by
  have hcb : (!invocable s.arg0) = true ↔ s.arg0 = 0#32 := by simp [invocable]
  change execRegisterCallback s = _
  simp only [execRegisterCallback, if_neg hst, hcb]

/-- Settles O14. -/
theorem registerCallbackReplacesTheHandler : Obligations.RegisterCallbackReplacesTheHandler := by
  refine fun s => ⟨exec_registerCallback_of_uninitialized, fun hst hcb => ?_, fun hst hcb => ?_⟩
  all_goals rw [exec_registerCallback_of_initialized hst]
  · rw [if_pos hcb, State.setResult]
  · rw [if_neg hcb, State.setResult]

/-! ### DEINIT (`43_controller.md` R210) -/

theorem exec_deinit (s : State) : exec .deinit s = .next s.deinitDone := rfl

/-- Settles O15: DEINIT has no check, and `State.deinitDone` is the record of R210. -/
theorem deinitClearsTheBlock : Obligations.DeinitClearsTheBlock := exec_deinit

/-! ### The lifecycle of STATE (`43_controller.md` R215) -/

@[simp] theorem State.pipeHalf_cb (s : State) (h : Half) : (s.pipeHalf h).cb = s.cb := by
  simp [State.pipeHalf, State.consumeHalf]

@[simp] theorem State.pipeHalf_destAddr (s : State) (h : Half) : (s.pipeHalf h).destAddr = s.destAddr := by
  simp [State.pipeHalf, State.consumeHalf]

/-- A command's transition of STATE. -/
theorem CommandEffect.st_cases {i : Instr} {s t : State} (e : CommandEffect s i t) :
    t.st = s.st
    ∨ (i = .configure ∧ s.st = .uninitialized ∧ t.st = .configured ∧ t.armed = true)
    ∨ (i = .start ∧ s.st = .configured ∧ t.st = .capturing ∧ s.arg1 ≠ 0#32)
    ∨ (i = .cancel ∧ s.st = .capturing ∧ t.st = .configured ∧ t.submitted = s.submitted)
    ∨ (i = .deinit ∧ t.st = .uninitialized ∧ t.submitted = s.submitted) := by
  cases e with
  | answered _ _ _ | bindingFailed _ | emptyCapture _ | registered _ => exact .inl rfl
  | configured hst => exact .inr (.inl ⟨rfl, hst, rfl, rfl⟩)
  | armedCapture hst _ hlen _ => exact .inr (.inr (.inl ⟨rfl, hst, rfl, hlen⟩))
  | cancelled hst => exact .inr (.inr (.inr (.inl ⟨rfl, hst, rfl, rfl⟩)))
  | deinitialized => exact .inr (.inr (.inr (.inr ⟨rfl, rfl, rfl⟩)))

/-- A producer input's transition of STATE: fault entry, from an armed block (`60_exceptions.md` R240). -/
theorem producer_st_cases {i : Instr} {s t : State} (hi : isProducer i = true) (e : exec i s = .next t) :
    t.st = s.st
    ∨ (s.armed = true ∧ t.st = .stopped ∧ t.fault = true ∧ t.armed = false ∧ t.submitted = s.submitted) := by
  rcases producer_cases hi e with rfl | ⟨harmed, c, h, _, _, rfl⟩ | ⟨_, h, _, _, rfl⟩ | ⟨_, idx, data, _, _, rfl⟩
  · exact .inl rfl
  · exact .inr ⟨harmed, rfl, rfl, rfl, rfl⟩
  · exact .inl (s.takeHalf_st h)
  · exact .inl rfl

/-- The sequencer's transition of STATE: a capture's last sample completes it (`42_stream.md` R185). -/
theorem execSeqProcess_st_cases {s t : State} (e : exec .seqProcess s = .next t) :
    t.st = s.st
    ∨ (s.st = .capturing ∧ t.st = .configured ∧ t.submitted = s.submitted ++ [⟨s.cb, s.destAddr⟩]) := by
  rcases execSeqProcess_cases e with ⟨_, rfl⟩ | ⟨_, e⟩
  · exact .inl rfl
  obtain ⟨_, ⟨_, rfl⟩ | ⟨hst, u, hdel, rfl⟩⟩ := processHalf_cases e
  · exact .inl (by simp)
  obtain ⟨_, _, ⟨_, rfl⟩ | ⟨_, rfl⟩⟩ := deliverSample_cases hdel
  · exact .inr ⟨hst, by simp, by simp⟩
  · exact .inl (by simp)

theorem InputEffect.st_eq {s t : State} (e : InputEffect s t) : t.st = s.st := by
  cases e <;> rfl

/-- Settles O44: by the invariant an armed block is Configured or Capturing. -/
theorem stateChangesOnlyByTheLifecycle : Obligations.StateChangesOnlyByTheLifecycle := by
  intro s t hs e hchanged
  cases step_effect e with
  | instr l i hnext _ hi hexec =>
    rcases hi with hi | hi | rfl
    · rcases (exec_command_effect hi hexec).st_cases with
        hsame | ⟨rfl, hconfigure⟩ | ⟨rfl, hstart⟩ | ⟨rfl, hcancel⟩ | ⟨rfl, hdeinit⟩
      · exact absurd hsame hchanged
      · exact .inl ⟨hnext, hconfigure⟩
      · exact .inr (.inl ⟨hnext, hstart⟩)
      · exact .inr (.inr (.inr (.inl ⟨hnext, hcancel⟩)))
      · exact .inr (.inr (.inr (.inr (.inr (.inl ⟨hnext, hdeinit⟩)))))
    · rcases producer_st_cases hi hexec with hsame | ⟨harmed, hfault⟩
      · exact absurd hsame hchanged
      · exact .inr (.inr (.inr (.inr (.inl ⟨⟨i, hnext, hi⟩, hs.armed_iff.mp harmed, hfault⟩))))
    · rcases execSeqProcess_st_cases hexec with hsame | hcomplete
      · exact absurd hsame hchanged
      · exact .inr (.inr (.inl ⟨hnext, hcomplete⟩))
  | input l heff => exact absurd heff.st_eq hchanged
  | reset l hr ht => exact .inr (.inr (.inr (.inr (.inr (.inr ⟨hr, by rw [ht]; rfl⟩)))))

end Sys2Proof.Machine

/-! PROOFS for `60_exceptions.md`: a producer input that raises an AcquisitionFault does fault entry and nothing else
(O23), and no other instruction raises one (O24). What each family of instructions does to FAULT is said once: a command
keeps or clears it, the sequencer, the deliveries and the datapath keep it. -/

namespace Sys2Proof.Machine

/-! ### Producer inputs -/

/-- Settles O23: of what a producer input can do (`producer_cases`), ignoring it, ACCEPT and a stored word all keep
FAULT, so what is left is fault entry. -/
theorem faultEntryHasNoOtherEffect : Obligations.FaultEntryHasNoOtherEffect := by
  intro i s t hi hclear e hraised
  have hchanged : t.fault ≠ s.fault := by simp [hclear, hraised]
  rcases producer_cases hi e with rfl | ⟨harmed, c, h, hc, hhalf, rfl⟩ | ⟨_, h, _, _, rfl⟩
    | ⟨_, idx, data, _, _, rfl⟩
  · exact absurd rfl hchanged
  · exact ⟨harmed, c, h, hc, hhalf, rfl⟩
  · exact absurd (s.takeHalf_fault h) hchanged
  · exact absurd (s.putWord_fault idx data) hchanged

/-! ### Commands, the sequencer and the datapath -/

/-- Only CONFIGURE and DEINIT write FAULT, and both write 0 (`43_controller.md` R200, R210). -/
theorem CommandEffect.fault_cases {i : Instr} {s t : State} (e : CommandEffect s i t) :
    t.fault = s.fault ∨ t.fault = false := by
  cases e with
  | configured _ | deinitialized => exact .inr rfl
  | answered _ _ _ | bindingFailed _ | emptyCapture _ | armedCapture _ _ _ _ | registered _ | cancelled _ =>
    exact .inl rfl

theorem deliverSample_fault {p : Word16} {s t : State} (e : deliverSample p s = .next t) : t.fault = s.fault := by
  obtain ⟨_, _, ⟨_, rfl⟩ | ⟨_, rfl⟩⟩ := deliverSample_cases e
  · exact (s.storeSample p).endCapture_fault
  · exact s.storeSample_fault p

@[simp] theorem State.consumeHalf_fault (s : State) (h : Half) : (s.consumeHalf h).fault = s.fault :=
  s.setHalfWords_fault h _

@[simp] theorem State.pipeHalf_fault (s : State) (h : Half) : (s.pipeHalf h).fault = s.fault := by
  simp [State.pipeHalf]

theorem execSeqProcess_fault {s t : State} (e : execSeqProcess s = .next t) : t.fault = s.fault := by
  rcases execSeqProcess_cases e with ⟨_, rfl⟩ | ⟨_, e⟩
  · rfl
  obtain ⟨_, ⟨_, rfl⟩ | ⟨_, u, hdel, rfl⟩⟩ := processHalf_cases e
  · simp
  · simp [deliverSample_fault hdel]

/-- SINC_DECIMATE answers a state only where the half was rewritten (`40_pipeline.md` R122). -/
theorem execSincDecimate_cases {h : Half} {s t : State} (e : execSincDecimate h s = .next t) :
    s.firstUnwritten h = none ∧ t = (s.consumeHalf h).setRet (s.sincOf h) := by
  unfold execSincDecimate at e
  split at e
  · cases e
  · exact ⟨‹_›, (Host.Outcome.next.inj e).symm⟩

theorem execSincDecimate_fault {h : Half} {s t : State} (e : execSincDecimate h s = .next t) : t.fault = s.fault := by
  obtain ⟨_, rfl⟩ := execSincDecimate_cases e
  simp

/-- An instruction that is neither a command nor a producer input keeps FAULT. -/
theorem exec_fault_of_internal {i : Instr} {s t : State} (hcmd : isCommand i = false) (hprod : isProducer i = false)
    (e : exec i s = .next t) : t.fault = s.fault := by
  cases i <;> simp only [isCommand, isProducer, Bool.true_eq_false] at hcmd hprod
  case seqProcess => exact execSeqProcess_fault e
  case sincDecimate => exact execSincDecimate_fault e
  case onSample => exact deliverSample_fault e
  case firStep | pcmNarrow | complete =>
    obtain rfl := Host.Outcome.next.inj e
    rfl

/-- Settles O24: whoever is no producer keeps FAULT or clears it. -/
theorem onlyProducerInputsRaiseFaults : Obligations.OnlyProducerInputsRaiseFaults := by
  intro i s t hprod e hraised
  have hcases : t.fault = s.fault ∨ t.fault = false := by
    cases hcmd : isCommand i with
    | true => exact (exec_command_effect hcmd e).fault_cases
    | false => exact .inl (exec_fault_of_internal hcmd hprod e)
  rcases hcases with hkept | hcleared
  · exact hkept.symm.trans hraised
  · exact nomatch hcleared.symm.trans hraised

end Sys2Proof.Machine

/-! PROOFS for `70_reset_and_hazards.md`: the reset table after power-on (O1) and after an asserted `rst` (O2), and what
an input does while `rst` is asserted (O3). O2 takes STATUS and WRITTEN from the power-on state, since `State.hardReset`
writes that state's values. For O3 an input that carries an instruction is ignored in `runBytes`, and an access to the
register window is settled in `hostWrite` and `hostRead`, before its width or alignment is looked at. -/

namespace Sys2Proof.Machine

/-! ### The reset table (`70_reset_and_hazards.md` R271) -/

theorem State.reset_statusWord : State.reset.statusWord = 0x00000000#32 := by decide

theorem State.reset_written : ∀ k : Fin 8, State.reset.written[k] = false := by decide

theorem State.reset_delay_eq_zero : ∀ x ∈ State.reset.delay, x = 0x00000000#32 := fun _ => List.eq_of_mem_replicate

/-- Settles O1. -/
theorem powerOnStateIsTheResetTable : Obligations.PowerOnStateIsTheResetTable :=
  ⟨rfl, rfl, rfl, State.reset_statusWord, rfl, rfl, rfl, rfl, rfl, rfl, rfl, rfl, rfl, stateInv_reset.delay_length,
    State.reset_delay_eq_zero, State.reset_written, rfl⟩

/-! ### Asserting `rst` -/

@[simp] theorem State.hardReset_statusWord (s : State) : s.hardReset.statusWord = State.reset.statusWord := rfl

@[simp] theorem State.hardReset_written (s : State) : s.hardReset.written = State.reset.written := rfl

@[simp] theorem State.hardReset_pend (s : State) (h : Half) : s.hardReset.pend h = false := by cases h <;> rfl

@[simp] theorem State.hardReset_own (s : State) (h : Half) : s.hardReset.own h = false := by cases h <;> rfl

theorem runInput_resetAssert (s : State) : runInput .resetAssert s = .next s.hardReset := rfl

theorem runInput_resetRelease (s : State) : runInput .resetRelease s = .next { s with rst := false } := rfl

theorem step_of_resetAssert {s : State} {rest : List Input} (hin : s.inputs = .resetAssert :: rest) :
    step s = .next (s.setInputs rest).hardReset := by
  rw [step_of_inputs hin, runInput_resetAssert]

/-- Settles O2: the step leaves `State.hardReset`. -/
theorem assertingResetRestoresTheResetTable : Obligations.AssertingResetRestoresTheResetTable := by
  intro s rest hin
  have hstatus : (s.setInputs rest).hardReset.statusWord = 0x00000000#32 := by
    rw [State.hardReset_statusWord, State.reset_statusWord]
  have hwritten : ∀ k : Fin 8, (s.setInputs rest).hardReset.written[k] = false := by
    simpa only [State.hardReset_written] using State.reset_written
  exact ⟨_, step_of_resetAssert hin, rfl, rfl, rfl, rfl, rfl, hstatus, rfl, rfl, rfl,
    fun h => ⟨State.hardReset_pend _ h, State.hardReset_own _ h⟩, rfl, rfl, rfl, rfl, rfl, rfl, rfl, rfl, rfl, rfl,
    hwritten, rfl, rfl⟩

/-! ### While `rst` is asserted (`70_reset_and_hazards.md` R270) -/

section Asserted

variable {s : State} (hrst : s.rst = true)
include hrst

theorem runBytes_of_rst (p : Port) (bytes : List Byte) : runBytes p bytes s = .next s := if_pos hrst

theorem hostWrite_of_rst (off : BitVec 6) (w : AccessWidth) (v : Word) : hostWrite off w v s = .next s := if_pos hrst

theorem hostRead_of_rst (off : BitVec 6) (w : AccessWidth) : hostRead off w s = .next (s.setBus 0#32) := if_pos hrst

theorem runInput_of_carried_of_rst {inp : Input} {p : Port} {bytes : List Byte} (h : inp.carried = some (p, bytes)) :
    runInput inp s = .next s := by
  rw [runInput_of_carried h, runBytes_of_rst hrst]

/-- A write to CMD is an instruction that is ignored, any other write a store that is. -/
theorem runInput_regWrite_of_rst (off : BitVec 6) (w : AccessWidth) (v : Word) :
    runInput (.regWrite off w v) s = .next s := by
  by_cases hcmd : off = 0x00#6 ∧ w = .w32
  · exact runInput_of_carried_of_rst hrst (if_pos hcmd)
  · rw [runInput_regWrite hcmd, hostWrite_of_rst hrst]

end Asserted

/-- Settles O3: taking the input leaves `rst` asserted, so each input is run by its rule above. -/
theorem assertedResetIgnoresInputs : Obligations.AssertedResetIgnoresInputs := by
  intro s rest hrst
  have hrst' : (s.setInputs rest).rst = true := hrst
  have ignored : ∀ {inp p bytes}, Input.carried inp = some (p, bytes) → s.inputs = inp :: rest →
      step s = .next (s.setInputs rest) := fun hcar hin => by
    rw [step_of_inputs hin, runInput_of_carried_of_rst hrst' hcar]
  refine ⟨fun off w v hin => ?regWrite, fun off w hin => ?regRead, fun _ => ignored rfl, fun _ => ignored rfl,
    ignored rfl, fun hin => ?resetRelease⟩
  case regWrite =>
    rw [step_of_inputs hin, runInput_regWrite_of_rst hrst']
    rfl
  case regRead =>
    rw [step_of_inputs hin, runInput_regRead, hostRead_of_rst hrst']
    rfl
  case resetRelease =>
    rw [step_of_inputs hin, runInput_resetRelease]
    rfl

end Sys2Proof.Machine
